-- ==== Sys2Proof/Word.lean ====
section
/-! DEFINITION. The word types of the CHIP-8 core (spec/00_scope.md R8 to R10; spec/30_encoding.md R301).
All values are unsigned (R10); a register index is a plain name 0 to 15, never added or masked. -/

namespace Sys2Proof

/-- A memory cell, a general register, a timer, an immediate NN (R8, R301). -/
abbrev Byte := BitVec 8

/-- An instruction word, `pc`, `I`, a return address (R110, R114, R115, R300). -/
abbrev Word := BitVec 16

/-- A 4-bit field or a key code (R121, R301). -/
abbrev Nibble := BitVec 4

/-- The 12-bit absolute address field NNN (R301). -/
abbrev Addr12 := BitVec 12

/-- A general register's index, 0 to 15 (R100, R304). -/
abbrev Reg := Fin 16

end Sys2Proof
end

