-- ==== Sys2Proof/Syntax.lean ====
section
/-! DEFINITION. The instructions of the CHIP-8 core: one constructor per row of spec/opcode_table.json (spec/30_encoding.md R306).
Fields an instruction ignores (bits 11:8 of CLS and RET, N of 5XYN and 9XYN: R303, R309) are no operands (log entry 13);
a no-op row keeps its fields, since its word is that of no other instruction. -/

namespace Sys2Proof

inductive Instr where
  /-- 00E0 (0XE0), R530. -/
  | cls
  /-- 00EE (0XEE), R420. -/
  | ret
  /-- 0NNN, a no-op, R590. -/
  | sys (nnn : Addr12)
  /-- 1NNN, R421. -/
  | jp (nnn : Addr12)
  /-- 2NNN, R422. -/
  | call (nnn : Addr12)
  /-- 3XNN, R441. -/
  | seImm (x : Reg) (nn : Byte)
  /-- 4XNN, R442. -/
  | sneImm (x : Reg) (nn : Byte)
  /-- 5XYN, R443. -/
  | seReg (x y : Reg)
  /-- 6XNN, R461. -/
  | ldImm (x : Reg) (nn : Byte)
  /-- 7XNN, R462. -/
  | addImm (x : Reg) (nn : Byte)
  /-- 8XY0, R463. -/
  | ldReg (x y : Reg)
  /-- 8XY1, R464. -/
  | orReg (x y : Reg)
  /-- 8XY2, R465. -/
  | andReg (x y : Reg)
  /-- 8XY3, R466. -/
  | xorReg (x y : Reg)
  /-- 8XY4, R467. -/
  | addReg (x y : Reg)
  /-- 8XY5, R468. -/
  | subReg (x y : Reg)
  /-- 8XY6, R469. -/
  | shr (x y : Reg)
  /-- 8XY7, R470. -/
  | subn (x y : Reg)
  /-- 8XYE, R471. -/
  | shl (x y : Reg)
  /-- 8XYN for any other N, a no-op, R591. -/
  | nop8 (x y : Reg) (n : Nibble)
  /-- 9XYN, R444. -/
  | sneReg (x y : Reg)
  /-- ANNN, R500. -/
  | ldI (nnn : Addr12)
  /-- BNNN, R423. -/
  | jpV0 (nnn : Addr12)
  /-- CXNN, R482. -/
  | rnd (x : Reg) (nn : Byte)
  /-- DXYN, R531. -/
  | drw (x y : Reg) (n : Nibble)
  /-- EX9E, R445. -/
  | skp (x : Reg)
  /-- EXA1, R446. -/
  | sknp (x : Reg)
  /-- EXNN for any other NN, a no-op, R592. -/
  | nope (x : Reg) (nn : Byte)
  /-- FX07, R560. -/
  | ldVxDt (x : Reg)
  /-- FX0A, R561. -/
  | ldVxK (x : Reg)
  /-- FX15, R562. -/
  | ldDtVx (x : Reg)
  /-- FX18, R563. -/
  | ldStVx (x : Reg)
  /-- FX1E, R501. -/
  | addI (x : Reg)
  /-- FX29, R502. -/
  | ldF (x : Reg)
  /-- FX33, R503. -/
  | ldB (x : Reg)
  /-- FX55, R504. -/
  | ldMemVx (x : Reg)
  /-- FX65, R505. -/
  | ldVxMem (x : Reg)
  /-- FXNN for any other NN, a no-op, R593. -/
  | nopf (x : Reg) (nn : Byte)
  deriving DecidableEq, Repr

end Sys2Proof
end

