-- ==== Sys2Proof/WellFormed.lean ====
section
/-! DEFINITION. Which terms of Instr stand for a word: a no-op row applies only where no earlier row of its family matches
(spec/30_encoding.md R306, R308). Every other term is well-formed: its fields fill their widths. -/

namespace Sys2Proof

/-- The functions NN of family 0x0 (R305). -/
def functions0 : List Byte := [0xE0, 0xEE]

/-- The functions N of family 0x8 (R305). -/
def functions8 : List Nibble := [0x0, 0x1, 0x2, 0x3, 0x4, 0x5, 0x6, 0x7, 0xE]

/-- The functions NN of family 0xE (R305). -/
def functionsE : List Byte := [0x9E, 0xA1]

/-- The functions NN of family 0xF (R305). -/
def functionsF : List Byte := [0x07, 0x0A, 0x15, 0x18, 0x1E, 0x29, 0x33, 0x55, 0x65]

/-- A no-op term must not hold the function of an instruction of its family (R306, R308, R590 to R593). -/
def Instr.wf : Instr → Bool
  | .sys nnn => nnn.setWidth 8 ∉ functions0
  | .nop8 _ _ n => n ∉ functions8
  | .nope _ nn => nn ∉ functionsE
  | .nopf _ nn => nn ∉ functionsF
  | .cls | .ret | .jp _ | .call _ | .seImm _ _ | .sneImm _ _ | .seReg _ _ | .ldImm _ _ | .addImm _ _
  | .ldReg _ _ | .orReg _ _ | .andReg _ _ | .xorReg _ _ | .addReg _ _ | .subReg _ _ | .shr _ _ | .subn _ _ | .shl _ _
  | .sneReg _ _ | .ldI _ | .jpV0 _ | .rnd _ _ | .drw _ _ _ | .skp _ | .sknp _ | .ldVxDt _ | .ldVxK _ | .ldDtVx _
  | .ldStVx _ | .addI _ | .ldF _ | .ldB _ | .ldMemVx _ | .ldVxMem _ => true

end Sys2Proof
end

