-- ==== Sys2Proof/Decode.lean ====
section
/-! DEFINITION. The decoder and the encoder of the CHIP-8 core (spec/30_encoding.md R300 to R309).
Dispatch is R305's: the family, then N or NN inside families 0x0, 0x8, 0xE and 0xF; the opcode map R306, with its masks, is
`opcodeRows`, and that the two agree is a statement of its own. -/

namespace Sys2Proof

/-! ### Fields (R301) -/

/-- `family` = bits 15:12. -/
def fieldFamily (w : Word) : Nibble := w.extractLsb' 12 4

/-- `X` = bits 11:8, as a register index. -/
def fieldX (w : Word) : Reg := (w.extractLsb' 8 4).toFin

/-- `Y` = bits 7:4, as a register index. -/
def fieldY (w : Word) : Reg := (w.extractLsb' 4 4).toFin

/-- `N` = bits 3:0. -/
def fieldN (w : Word) : Nibble := w.extractLsb' 0 4

/-- `NN` = bits 7:0. -/
def fieldNN (w : Word) : Byte := w.extractLsb' 0 8

/-- `NNN` = bits 11:0. -/
def fieldNNN (w : Word) : Addr12 := w.extractLsb' 0 12

/-! ### The decoder (R305) -/

/-- Family 0x0 looks at NN only; bits 11:8 are not examined (R305, R309). -/
def decodeFamily0 (w : Word) : Instr :=
  match fieldNN w with
  | 0xE0#8 => .cls
  | 0xEE#8 => .ret
  | _ => .sys (fieldNNN w)

/-- Family 0x8 looks at N (R305); the functions of N = 0, 1, 2, 3 and 7 are the conventional ones
(PRESUMED by the spec itself, 93_implementation_defined.md I2: log entry 14). -/
def decodeFamily8 (w : Word) : Instr :=
  match fieldN w with
  | 0x0#4 => .ldReg (fieldX w) (fieldY w)
  | 0x1#4 => .orReg (fieldX w) (fieldY w)
  | 0x2#4 => .andReg (fieldX w) (fieldY w)
  | 0x3#4 => .xorReg (fieldX w) (fieldY w)
  | 0x4#4 => .addReg (fieldX w) (fieldY w)
  | 0x5#4 => .subReg (fieldX w) (fieldY w)
  | 0x6#4 => .shr (fieldX w) (fieldY w)
  | 0x7#4 => .subn (fieldX w) (fieldY w)
  | 0xE#4 => .shl (fieldX w) (fieldY w)
  | _ => .nop8 (fieldX w) (fieldY w) (fieldN w)

/-- Family 0xE looks at NN (R305). -/
def decodeFamilyE (w : Word) : Instr :=
  match fieldNN w with
  | 0x9E#8 => .skp (fieldX w)
  | 0xA1#8 => .sknp (fieldX w)
  | _ => .nope (fieldX w) (fieldNN w)

/-- Family 0xF looks at NN (R305). -/
def decodeFamilyF (w : Word) : Instr :=
  match fieldNN w with
  | 0x07#8 => .ldVxDt (fieldX w)
  | 0x0A#8 => .ldVxK (fieldX w)
  | 0x15#8 => .ldDtVx (fieldX w)
  | 0x18#8 => .ldStVx (fieldX w)
  | 0x1E#8 => .addI (fieldX w)
  | 0x29#8 => .ldF (fieldX w)
  | 0x33#8 => .ldB (fieldX w)
  | 0x55#8 => .ldMemVx (fieldX w)
  | 0x65#8 => .ldVxMem (fieldX w)
  | _ => .nopf (fieldX w) (fieldNN w)

/-- The instruction a word selects: total, no word is refused (R305, R307, R308). -/
def decodeWord (w : Word) : Instr :=
  match fieldFamily w with
  | 0x0#4 => decodeFamily0 w
  | 0x1#4 => .jp (fieldNNN w)
  | 0x2#4 => .call (fieldNNN w)
  | 0x3#4 => .seImm (fieldX w) (fieldNN w)
  | 0x4#4 => .sneImm (fieldX w) (fieldNN w)
  | 0x5#4 => .seReg (fieldX w) (fieldY w)
  | 0x6#4 => .ldImm (fieldX w) (fieldNN w)
  | 0x7#4 => .addImm (fieldX w) (fieldNN w)
  | 0x8#4 => decodeFamily8 w
  | 0x9#4 => .sneReg (fieldX w) (fieldY w)
  | 0xA#4 => .ldI (fieldNNN w)
  | 0xB#4 => .jpV0 (fieldNNN w)
  | 0xC#4 => .rnd (fieldX w) (fieldNN w)
  | 0xD#4 => .drw (fieldX w) (fieldY w) (fieldN w)
  | 0xE#4 => decodeFamilyE w
  | _ => decodeFamilyF w

/-- Why a list of bytes holds no instruction: no encoding is illegal (R308), so only its length can be wrong. -/
inductive DecodeError where
  /-- Fewer than the 2 bytes that every instruction has (R300). -/
  | truncated
  deriving DecidableEq, Repr

/-- The word of two consecutive bytes: the byte at the lower address is bits 15:8 (spec/20_memory.md R202). -/
def wordOfBytes (hi lo : Byte) : Word := hi ++ lo

/-- Decoding consumes exactly 2 bytes (R300) and gives the rest back. -/
def decode : List Byte → Except DecodeError (Instr × List Byte)
  | hi :: lo :: rest => .ok (decodeWord (wordOfBytes hi lo), rest)
  | [_] | [] => .error .truncated

/-! ### The encoder (R303, R306) -/

/-- A register index as a field X or Y. -/
def regField (x : Reg) : Nibble := BitVec.ofFin x

/-- Format XNN, and XOP with the function as NN. -/
def encodeXNN (family : Nibble) (x : Reg) (nn : Byte) : Word := family ++ regField x ++ nn

/-- Format XYN. -/
def encodeXYN (family : Nibble) (x y : Reg) (n : Nibble) : Word := family ++ regField x ++ regField y ++ n

/-- Format NNN. -/
def encodeNNN (family : Nibble) (nnn : Addr12) : Word := family ++ nnn

/-- The word of an instruction; the bits that an instruction ignores (R309) are zero (log entry 13). -/
def encode : Instr → Word
  | .cls => 0x00E0
  | .ret => 0x00EE
  | .sys nnn => encodeNNN 0x0 nnn
  | .jp nnn => encodeNNN 0x1 nnn
  | .call nnn => encodeNNN 0x2 nnn
  | .seImm x nn => encodeXNN 0x3 x nn
  | .sneImm x nn => encodeXNN 0x4 x nn
  | .seReg x y => encodeXYN 0x5 x y 0x0
  | .ldImm x nn => encodeXNN 0x6 x nn
  | .addImm x nn => encodeXNN 0x7 x nn
  | .ldReg x y => encodeXYN 0x8 x y 0x0
  | .orReg x y => encodeXYN 0x8 x y 0x1
  | .andReg x y => encodeXYN 0x8 x y 0x2
  | .xorReg x y => encodeXYN 0x8 x y 0x3
  | .addReg x y => encodeXYN 0x8 x y 0x4
  | .subReg x y => encodeXYN 0x8 x y 0x5
  | .shr x y => encodeXYN 0x8 x y 0x6
  | .subn x y => encodeXYN 0x8 x y 0x7
  | .shl x y => encodeXYN 0x8 x y 0xE
  | .nop8 x y n => encodeXYN 0x8 x y n
  | .sneReg x y => encodeXYN 0x9 x y 0x0
  | .ldI nnn => encodeNNN 0xA nnn
  | .jpV0 nnn => encodeNNN 0xB nnn
  | .rnd x nn => encodeXNN 0xC x nn
  | .drw x y n => encodeXYN 0xD x y n
  | .skp x => encodeXNN 0xE x 0x9E
  | .sknp x => encodeXNN 0xE x 0xA1
  | .nope x nn => encodeXNN 0xE x nn
  | .ldVxDt x => encodeXNN 0xF x 0x07
  | .ldVxK x => encodeXNN 0xF x 0x0A
  | .ldDtVx x => encodeXNN 0xF x 0x15
  | .ldStVx x => encodeXNN 0xF x 0x18
  | .addI x => encodeXNN 0xF x 0x1E
  | .ldF x => encodeXNN 0xF x 0x29
  | .ldB x => encodeXNN 0xF x 0x33
  | .ldMemVx x => encodeXNN 0xF x 0x55
  | .ldVxMem x => encodeXNN 0xF x 0x65
  | .nopf x nn => encodeXNN 0xF x nn

/-- The high byte of a word, stored at the lower address (R202). -/
def highByte (w : Word) : Byte := w.extractLsb' 8 8

/-- The low byte of a word, stored at the higher address (R202). -/
def lowByte (w : Word) : Byte := w.extractLsb' 0 8

/-- The two bytes of an instruction as memory holds them. -/
def encodeBytes (i : Instr) : List Byte := [highByte (encode i), lowByte (encode i)]

/-! ### The opcode map (R306) -/

/-- One row of the opcode map. -/
structure OpcodeRow where
  mask : Word
  pattern : Word
  mnemonic : String
  deriving DecidableEq, Repr

/-- The opcode map of R306, row by row, with the mnemonics of spec/opcode_table.json. -/
def opcodeRows : List OpcodeRow :=
  [⟨0xF0FF, 0x00E0, "CLS"⟩, ⟨0xF0FF, 0x00EE, "RET"⟩, ⟨0xF000, 0x0000, "SYS_NNN"⟩, ⟨0xF000, 0x1000, "JP_NNN"⟩,
   ⟨0xF000, 0x2000, "CALL_NNN"⟩, ⟨0xF000, 0x3000, "SE_VX__NN"⟩, ⟨0xF000, 0x4000, "SNE_VX__NN"⟩,
   ⟨0xF000, 0x5000, "SE_VX__VY"⟩, ⟨0xF000, 0x6000, "LD_VX__NN"⟩, ⟨0xF000, 0x7000, "ADD_VX__NN"⟩] ++
  [⟨0xF00F, 0x8000, "LD_VX__VY"⟩, ⟨0xF00F, 0x8001, "OR_VX__VY"⟩, ⟨0xF00F, 0x8002, "AND_VX__VY"⟩,
   ⟨0xF00F, 0x8003, "XOR_VX__VY"⟩, ⟨0xF00F, 0x8004, "ADD_VX__VY"⟩, ⟨0xF00F, 0x8005, "SUB_VX__VY"⟩,
   ⟨0xF00F, 0x8006, "SHR_VX____VY"⟩, ⟨0xF00F, 0x8007, "SUBN_VX__VY"⟩, ⟨0xF00F, 0x800E, "SHL_VX____VY"⟩,
   ⟨0xF000, 0x8000, "NOP8"⟩] ++
  [⟨0xF000, 0x9000, "SNE_VX__VY"⟩, ⟨0xF000, 0xA000, "LD_I__NNN"⟩, ⟨0xF000, 0xB000, "JP_V0__NNN"⟩,
   ⟨0xF000, 0xC000, "RND_VX__NN"⟩, ⟨0xF000, 0xD000, "DRW_VX__VY__N"⟩, ⟨0xF0FF, 0xE09E, "SKP_VX"⟩,
   ⟨0xF0FF, 0xE0A1, "SKNP_VX"⟩, ⟨0xF000, 0xE000, "NOPE"⟩] ++
  [⟨0xF0FF, 0xF007, "LD_VX__DT"⟩, ⟨0xF0FF, 0xF00A, "LD_VX__K"⟩, ⟨0xF0FF, 0xF015, "LD_DT__VX"⟩,
   ⟨0xF0FF, 0xF018, "LD_ST__VX"⟩, ⟨0xF0FF, 0xF01E, "ADD_I__VX"⟩, ⟨0xF0FF, 0xF029, "LD_F__VX"⟩,
   ⟨0xF0FF, 0xF033, "LD_B__VX"⟩, ⟨0xF0FF, 0xF055, "LD__I___VX"⟩, ⟨0xF0FF, 0xF065, "LD_VX___I"⟩, ⟨0xF000, 0xF000, "NOPF"⟩]

/-- `(w & mask) = match` (R306). -/
def OpcodeRow.selects (r : OpcodeRow) (w : Word) : Bool := w &&& r.mask == r.pattern

/-- The first row that a word selects, reading top to bottom (R306). -/
def firstRow (w : Word) : Option OpcodeRow := opcodeRows.find? (·.selects w)

/-- The mnemonic of an instruction's row in spec/opcode_table.json. -/
def Instr.mnemonic : Instr → String
  | .cls => "CLS" | .ret => "RET" | .sys _ => "SYS_NNN" | .jp _ => "JP_NNN" | .call _ => "CALL_NNN"
  | .seImm _ _ => "SE_VX__NN" | .sneImm _ _ => "SNE_VX__NN" | .seReg _ _ => "SE_VX__VY" | .ldImm _ _ => "LD_VX__NN"
  | .addImm _ _ => "ADD_VX__NN" | .ldReg _ _ => "LD_VX__VY" | .orReg _ _ => "OR_VX__VY" | .andReg _ _ => "AND_VX__VY"
  | .xorReg _ _ => "XOR_VX__VY" | .addReg _ _ => "ADD_VX__VY" | .subReg _ _ => "SUB_VX__VY" | .shr _ _ => "SHR_VX____VY"
  | .subn _ _ => "SUBN_VX__VY" | .shl _ _ => "SHL_VX____VY" | .nop8 _ _ _ => "NOP8" | .sneReg _ _ => "SNE_VX__VY"
  | .ldI _ => "LD_I__NNN" | .jpV0 _ => "JP_V0__NNN" | .rnd _ _ => "RND_VX__NN" | .drw _ _ _ => "DRW_VX__VY__N"
  | .skp _ => "SKP_VX" | .sknp _ => "SKNP_VX" | .nope _ _ => "NOPE" | .ldVxDt _ => "LD_VX__DT" | .ldVxK _ => "LD_VX__K"
  | .ldDtVx _ => "LD_DT__VX" | .ldStVx _ => "LD_ST__VX" | .addI _ => "ADD_I__VX" | .ldF _ => "LD_F__VX"
  | .ldB _ => "LD_B__VX" | .ldMemVx _ => "LD__I___VX" | .ldVxMem _ => "LD_VX___I" | .nopf _ _ => "NOPF"

/-! ### The host's reading of the opcode table -/

/-- The instruction whose bits are `w`, numbered as spec/opcode_table.json numbers them: bit 0 is the least significant bit of
the one 16-bit word. Bits from `nbits` up are 0; the two bytes go to the decoder high byte first (R202), and a table word
longer than an instruction (R300) leaves bytes over and is none. -/
def decodeTableWord (nbits w : Nat) : Option Instr :=
  if 16 < nbits then none
  else
    let word : Word := BitVec.ofNat 16 (w % 2 ^ nbits)
    match decode [highByte word, lowByte word] with
    | .ok (i, []) => some i
    | _ => none

end Sys2Proof
end

