-- ==== Sys2Proof/Config.lean ====
section
/-! DEFINITION. What an implementation fixes and what the environment supplies (spec/00_scope.md R8).
`Config` holds the parameters that the spec leaves OPEN; a State carries one, so a statement about every state is a statement
about every value of every parameter (log entry 1). The draws of the random source are the one free value (log entry 3). -/

namespace Sys2Proof

/-- SHIFT_SOURCE: which register 8XY6 and 8XYE shift (spec/92_eei_decisions.md D9). -/
inductive ShiftSource where
  | vx
  | vy
  deriving DecidableEq, Repr

/-- FONT_INDEX_MODE: what FX29 multiplies by 5 (D14; spec/90_conflicts.md C2). -/
inductive FontIndexMode where
  | full
  | lowNibble
  deriving DecidableEq, Repr

/-- LOADSTORE_I_MODE: what FX55 and FX65 do to I (D13). -/
inductive LoadStoreIMode where
  | unchanged
  | increment
  deriving DecidableEq, Repr

/-- FONT_DATA: 16 glyphs of 5 bytes (spec/20_memory.md R210, R212). -/
abbrev FontData := Vector Byte 80

/-- The OPEN parameters of R8. -/
structure Config where
  shiftSource : ShiftSource
  fontIndexMode : FontIndexMode
  loadStoreIMode : LoadStoreIMode
  fontData : FontData
  deriving DecidableEq, Repr

/-- The conventional font, the default of FONT_DATA (R212). PRESUMED, by the spec itself, from general knowledge
(spec/93_implementation_defined.md I1): log entry 2. -/
def conventionalFont : FontData :=
  #v[0xF0, 0x90, 0x90, 0x90, 0xF0, 0x20, 0x60, 0x20, 0x20, 0x70,
     0xF0, 0x10, 0xF0, 0x80, 0xF0, 0xF0, 0x10, 0xF0, 0x10, 0xF0,
     0x90, 0x90, 0xF0, 0x10, 0x10, 0xF0, 0x80, 0xF0, 0x10, 0xF0,
     0xF0, 0x80, 0xF0, 0x90, 0xF0, 0xF0, 0x10, 0x20, 0x40, 0x40,
     0xF0, 0x90, 0xF0, 0x90, 0xF0, 0xF0, 0x90, 0xF0, 0x10, 0xF0,
     0xF0, 0x90, 0xF0, 0x90, 0x90, 0xE0, 0x90, 0xE0, 0x90, 0xE0,
     0xF0, 0x80, 0x80, 0x80, 0xF0, 0xE0, 0x90, 0x90, 0x90, 0xE0,
     0xF0, 0x80, 0xF0, 0x80, 0xF0, 0xF0, 0x80, 0xF0, 0x80, 0x80]

/-- The default of every OPEN parameter, as the table of R8 gives it (log entry 2). -/
def Config.default : Config where
  shiftSource := .vx
  fontIndexMode := .full
  loadStoreIMode := .unchanged
  fontData := conventionalFont

/-- The n-th draw of the environment (spec/43_register_alu.md R482; spec/60_exceptions.md R644): a FREE VALUE. It has no body,
so nothing can be proved of a draw but what holds for every 8-bit value. -/
opaque Config.draw : Nat → Byte

end Sys2Proof
end

