-- ==== Sys2Proof/Machine/State.lean ====
section
/-! DEFINITION. The state of the CHIP-8 core as plain data: everything spec/10_state.md gives the machine, and two fields of the
model's own (`draws`, `config`). -/

namespace Sys2Proof.Machine

/-- The memory image (spec/20_memory.md R200): the cells that differ from what an unlisted address reads as
(`Memory.unlisted`, the reset contents), addresses strictly rising (`Memory.wf`). -/
abbrev Memory := List Host.Cell

/-- `fb[x][y]`: 64 columns of 32 one-bit pixels (spec/10_state.md R118). -/
abbrev Framebuffer := Vector (Vector Bool 32) 64

/-- The call stack's 16 slots, each empty or a return address (R115). -/
abbrev Stack := Vector (Option Word) 16

/-- The five fatal faults (spec/60_exceptions.md R600). -/
inductive FaultCause where
  /-- pc >= 4094 at the start of a cycle; the information is that pc (R401). -/
  | outOfBoundsFetch
  /-- A push with sp = 16; the information is the pc of the CALL (R422). -/
  | stackOverflow
  /-- A pop with sp = 0; the information is the pc of the RET (R420). -/
  | stackUnderflow
  /-- A data access would reach 4096 or above; the information is I (R206). -/
  | memoryOutOfBounds
  /-- I + V[X] > 0xFFFF; the information is I (R501). -/
  | indexOverflow
  deriving DecidableEq, Repr

/-- The numeric codes of R600. -/
def FaultCause.code : FaultCause → Nat
  | .outOfBoundsFetch => 1
  | .stackOverflow => 2
  | .stackUnderflow => 3
  | .memoryOutOfBounds => 4
  | .indexOverflow => 5

/-- The run status (spec/10_state.md R122). -/
inductive Status where
  | stopped
  | running
  | paused
  /-- `Faulted(f, a)`: the cause and the information recorded (R610). -/
  | faulted (f : FaultCause) (a : Word)
  deriving DecidableEq, Repr

/-- `status` is `Faulted(f, a)` for some f and a. -/
def Status.isFaulted : Status → Bool
  | .faulted _ _ => true
  | .stopped | .running | .paused => false

/-- The events of the output stream (R126). -/
inductive Event where
  | toneStart
  | toneRestart
  deriving DecidableEq, Repr

structure State where
  /-- V[0..15] (R100). -/
  v : Vector Byte 16
  /-- I (R114). -/
  i : Word
  /-- The address of the next instruction to fetch (R110). -/
  pc : Word
  /-- stack[0..15] (R115). -/
  stack : Stack
  /-- The number of occupied slots, 0 to 16 (R115). -/
  sp : Fin 17
  /-- The delay timer (R117). -/
  dt : Byte
  /-- The sound timer (R117). -/
  st : Byte
  /-- mem[0..4095] (R200). -/
  mem : Memory
  /-- fb[x][y] (R118). -/
  fb : Framebuffer
  /-- The redraw-pending flag (R120). -/
  redraw : Bool
  /-- The key latch: no key, or the code of one (R121). -/
  key : Option Nibble
  /-- The run status (R122). -/
  status : Status
  /-- The output event stream, oldest first, kept as a history (R126; log entry 10). -/
  events : List Event
  /-- The model's own: how many draws have been taken of the random source (R644; log entry 3). -/
  draws : Nat
  /-- The model's own: the OPEN parameters of spec/00_scope.md R8, never written (log entry 1). -/
  config : Config
  deriving DecidableEq, Repr

/-- Where a step stops with no next state. The five faults of the spec are NOT here: a cycle that raises one goes on to a next
state whose status is Faulted (R610; log entry 6). -/
inductive Fault where
  /-- Raised by RET (00EE) alone, when sp > 0 but the slot below sp is empty: R115 says that the slots below sp are occupied, so
  no state that the machine reaches is such, and the spec gives no value to return to. SAFE (log entry 7). -/
  | emptySlot
  deriving DecidableEq, Repr

inductive Refusal where
  /-- Raised by exec's arm for an instruction that has no meaning yet. SAFE. No arm raises it now. -/
  | notModelled (mnemonic : String)
  /-- Raised by the host transactions reset and loadProgram alone, when the status is Running or Paused: a host-duty violation
  that has no move in the model (R645, R657). UNSAFE for a claim about a host that breaks its duty (log entry 9). -/
  | hostDuty (request : String)
  deriving DecidableEq, Repr

/-- The machine right after reset (R130, R700 to R702): pc = 512, memory at its reset contents (nothing listed), everything else
zero, empty or off, status Stopped. The key latch, which reset does not write, is none (log entry 4), the parameters have their
defaults (log entry 2) and no draw has been taken (log entry 3). -/
def State.reset : State where
  v := Vector.replicate 16 0
  i := 0
  pc := 512
  stack := Vector.replicate 16 none
  sp := 0
  dt := 0
  st := 0
  mem := []
  fb := Vector.replicate 64 (Vector.replicate 32 false)
  redraw := false
  key := none
  status := .stopped
  events := []
  draws := 0
  config := Config.default

end Sys2Proof.Machine
end

