-- ==== Sys2Proof/Machine/Ops.lean ====
section
/-! DEFINITION. The named operations over registers, memory, stack, framebuffer, timers and status, each a function of the state;
every meaning is written over them. -/

namespace Sys2Proof.Machine

/-- MEM_SIZE (spec/00_scope.md R8). -/
def memSize : Nat := 4096

/-- FETCH_LIMIT: a fetch at this pc or above faults (R8, R401; spec/90_conflicts.md C3). -/
def fetchLimit : Nat := 4094

/-- PROG_ORIGIN (R8). -/
def programOrigin : Nat := 512

/-- PROG_MAX (R8). -/
def programMax : Nat := 3584

/-- FONT_BASE (R8): the address of glyph 0. -/
def fontBase : Nat := 0

/-- VF, the flag output (spec/10_state.md R101). -/
def flagReg : Reg := 15

/-! ### One update per piece of state -/

/-- `V[x] <- b` (R100). -/
def State.setV (s : State) (x : Reg) (b : Byte) : State := { s with v := s.v.set x b }

/-- All of V[0..15] at once (FX65). -/
def State.setRegs (s : State) (v : Vector Byte 16) : State := { s with v := v }

/-- `I <- w`. -/
def State.setI (s : State) (w : Word) : State := { s with i := w }

/-- `pc <- w`. -/
def State.setPc (s : State) (w : Word) : State := { s with pc := w }

/-- The call stack's slots and its pointer. -/
def State.setStack (s : State) (slots : Stack) (sp : Fin 17) : State := { s with stack := slots, sp := sp }

/-- `dt <- b`. -/
def State.setDt (s : State) (b : Byte) : State := { s with dt := b }

/-- `st <- b`. -/
def State.setSt (s : State) (b : Byte) : State := { s with st := b }

/-- The memory image. -/
def State.setMem (s : State) (m : Memory) : State := { s with mem := m }

/-- The framebuffer. -/
def State.setFb (s : State) (fb : Framebuffer) : State := { s with fb := fb }

/-- `redraw <- r`. -/
def State.setRedraw (s : State) (r : Bool) : State := { s with redraw := r }

/-- `key <- k`, by the host alone (R121). -/
def State.setKey (s : State) (k : Option Nibble) : State := { s with key := k }

/-- `status <- x`. -/
def State.setStatus (s : State) (x : Status) : State := { s with status := x }

/-- The output event stream. -/
def State.setEvents (s : State) (es : List Event) : State := { s with events := es }

/-- The count of draws taken (log entry 3). -/
def State.setDraws (s : State) (n : Nat) : State := { s with draws := n }

/-! ### Registers -/

/-- `V[x]` (R100). -/
def State.reg (s : State) (x : Reg) : Byte := s.v[x]

/-- `VF <- b` (R101). -/
def State.setFlag (s : State) (b : Byte) : State := s.setV flagReg b

/-! ### Program counter -/

/-- `pc <- p + 2`, before execute (spec/40_cycle.md R403). -/
def State.advance (s : State) : State := s.setPc (s.pc + 2)

/-- `Skip()`: `pc <- pc + 2` on top of the advance, on a condition (R410). -/
def State.skipIf (s : State) (c : Bool) : State := if c then s.setPc (s.pc + 2) else s

/-! ### Memory (spec/20_memory.md) -/

/-- What an address that the memory lists no cell for reads as: its reset contents, FONT_DATA in 0..79 and 0 elsewhere
(R130, R210, R700; log entry 11). -/
def Memory.unlisted (font : FontData) (a : Nat) : Byte :=
  if h : fontBase ≤ a ∧ a < fontBase + 80 then font[a - fontBase]'(by omega) else 0

/-- The byte of the cell at an address, where one is listed. -/
def Memory.lookup : Memory → Nat → Option Byte
  | [], _ => none
  | (k, b) :: m, a => if k = a then some b else Memory.lookup m a

/-- `mem[a]` (R12, R207). -/
def Memory.read (font : FontData) (m : Memory) (a : Nat) : Byte := (Memory.lookup m a).getD (Memory.unlisted font a)

/-- The cells with one more, or one replaced, in address order. -/
def Memory.insert : Memory → Nat → Byte → Memory
  | [], a, b => [(a, b)]
  | (k, c) :: m, a, b =>
    if a < k then (a, b) :: (k, c) :: m
    else if a = k then (a, b) :: m
    else (k, c) :: Memory.insert m a b

/-- The cells without the one at an address. -/
def Memory.erase : Memory → Nat → Memory
  | [], _ => []
  | (k, c) :: m, a => if a = k then m else (k, c) :: Memory.erase m a

/-- `mem[a] <- b` (R12, R207): writing what an unlisted address reads as removes the cell. -/
def Memory.write (font : FontData) (m : Memory) (a : Nat) (b : Byte) : Memory :=
  if b = Memory.unlisted font a then Memory.erase m a else Memory.insert m a b

/-- The canonical form: addresses strictly rising, inside the address space, no cell equal to what it would read as unlisted. -/
abbrev Memory.wf (font : FontData) (m : Memory) : Prop :=
  m.Pairwise (fun c d => c.1 < d.1) ∧ ∀ c ∈ m, c.1 < memSize ∧ c.2 ≠ Memory.unlisted font c.1

/-- `MemRead(a, 1)` (R12). -/
def State.read8 (s : State) (a : Nat) : Byte := Memory.read s.config.fontData s.mem a

/-- `MemWrite(a, 1, b)` (R12). -/
def State.write8 (s : State) (a : Nat) (b : Byte) : State := s.setMem (Memory.write s.config.fontData s.mem a b)

/-- Consecutive bytes, ascending (R503, R504, R701). -/
def State.writeBytes (s : State) (a : Nat) : List Byte → State
  | [] => s
  | b :: bs => (s.write8 a b).writeBytes (a + 1) bs

/-- `n` consecutive bytes, ascending (R505, R531). -/
def State.readBytes (s : State) (a n : Nat) : List Byte := (List.range n).map fun k => s.read8 (a + k)

/-- R206: an access of `n` bytes at I stays below 4096; an access of no byte always does. -/
def State.accessFits (s : State) (n : Nat) : Bool := n = 0 || s.i.toNat + n ≤ memSize

/-! ### Taking a fault (spec/60_exceptions.md R610) -/

/-- `raise f(a)`: nothing of the cycle is committed, so `s` is the state at the start of the cycle; the cause and the information
go into status, and nothing else changes: no handler, no vector, no saved register. -/
def State.raise (s : State) (f : FaultCause) (a : Word) : State := s.setStatus (.faulted f a)

/-! There is no return from a fault: Faulted is left only by the host's reset (R612), `hostReset` of HostPort. -/

/-! ### Call stack (spec/10_state.md R116) -/

/-- `Push(w)`; none when sp = 16. -/
def State.push (s : State) (w : Word) : Option State :=
  if h : s.sp.val < 16 then some (s.setStack (s.stack.set s.sp.val (some w)) ⟨s.sp.val + 1, by omega⟩) else none

/-- `Pop()`: the slot popped, which keeps its contents, and the state after; none when sp = 0. -/
def State.pop (s : State) : Option (Option Word × State) :=
  if h : 0 < s.sp.val then some (s.stack[s.sp.val - 1], s.setStack s.stack ⟨s.sp.val - 1, by omega⟩) else none

/-! ### Framebuffer (spec/10_state.md R118; spec/45_display.md R533) -/

/-- All pixels off. -/
def Framebuffer.blank : Framebuffer := Vector.replicate 64 (Vector.replicate 32 false)

/-- `fb[x][y]`; off outside the framebuffer. -/
def Framebuffer.pixel (fb : Framebuffer) (x y : Nat) : Bool := if h : x < 64 ∧ y < 32 then fb[x][y] else false

/-- `fb[x][y] <- fb[x][y] ^ 1`; outside the framebuffer nothing (R533). -/
def Framebuffer.flip (fb : Framebuffer) (x y : Nat) : Framebuffer :=
  if h : x < 64 ∧ y < 32 then fb.set x ((fb[x]).set y (!fb[x][y])) else fb

/-! ### Output events and draws -/

/-- `emit e` (spec/00_scope.md R13). -/
def State.emit (s : State) (e : Event) : State := s.setEvents (s.events ++ [e])

/-- The value of the next `draw()` (R13, R644). -/
def State.nextDraw (s : State) : Byte := Config.draw s.draws

/-- The state after one `draw()`. -/
def State.takeDraw (s : State) : State := s.setDraws (s.draws + 1)

/-! ### Timers (spec/40_cycle.md R406, R407) -/

/-- `if dt > 0: dt <- dt - 1`. -/
def State.countDelay (s : State) : State := if s.dt = 0 then s else s.setDt (s.dt - 1)

/-- `if st > 0: st <- st - 1; if st = 0: emit ToneRestart`. -/
def State.countSound (s : State) : State :=
  if s.st = 0 then s
  else if s.st - 1 = 0 then (s.setSt (s.st - 1)).emit .toneRestart
  else s.setSt (s.st - 1)

/-- The countdown of a cycle that commits, the delay timer first. -/
def State.countTimers (s : State) : State := s.countDelay.countSound

/-! ### Fetch (spec/40_cycle.md R401, R402) -/

/-- R401: the fetch address is 4094 or above. -/
def State.fetchFaults (s : State) : Bool := fetchLimit ≤ s.pc.toNat

/-- The two bytes at pc, the lower address first. -/
def State.fetchBytes (s : State) : List Byte := [s.read8 s.pc.toNat, s.read8 (s.pc.toNat + 1)]

/-- R402: mem[pc] is bits 15:8, mem[pc + 1] is bits 7:0. -/
def State.fetchWord (s : State) : Word := wordOfBytes (s.read8 s.pc.toNat) (s.read8 (s.pc.toNat + 1))

end Sys2Proof.Machine
end

