-- ==== Sys2Proof/Machine/Operands.lean ====
section
/-! DEFINITION. The operand forms: what an instruction reads, as a function of the state it starts from
(spec/43_register_alu.md R460: operands are read before anything is written). -/

namespace Sys2Proof.Machine

/-- NNN zero-extended to 16 bits (spec/30_encoding.md R304). -/
def absoluteAddress (nnn : Addr12) : Word := nnn.setWidth 16

/-- The target of BNNN: NNN + V[0], not reduced modulo 4096 (spec/41_control_transfer.md R423). -/
def State.offsetTarget (s : State) (nnn : Addr12) : Word := absoluteAddress nnn + (s.reg 0).setWidth 16

/-- The operand of 8XY6 and 8XYE, by SHIFT_SOURCE (spec/43_register_alu.md R469, R471). -/
def State.shiftOperand (s : State) (x y : Reg) : Byte :=
  match s.config.shiftSource with
  | .vx => s.reg x
  | .vy => s.reg y

/-- `key = some(k) and k = V[X]` (spec/42_skips.md R445). -/
def State.keyMatches (s : State) (x : Reg) : Bool :=
  match s.key with
  | none => false
  | some k => k.setWidth 8 == s.reg x

/-- The glyph address of FX29, by FONT_INDEX_MODE (spec/44_index_and_memory.md R502). -/
def State.glyphAddress (s : State) (x : Reg) : Word :=
  match s.config.fontIndexMode with
  | .full => (s.reg x).setWidth 16 * 5
  | .lowNibble => (s.reg x &&& 0x0F).setWidth 16 * 5

/-- The three decimal digits of a byte, most significant first (R503). -/
def bcdDigits (b : Byte) : List Byte := [b / 100, b / 10 % 10, b % 10]

/-- V[0] to V[X], ascending (R504). -/
def State.regsUpTo (s : State) (x : Reg) : List Byte := s.v.toList.take (x.val + 1)

/-- The registers after mem[I..I+X] has gone into V[0..X] (R505). -/
def State.regsLoaded (s : State) (x : Reg) : Vector Byte 16 :=
  Vector.ofFn fun j => if j ≤ x then s.read8 (s.i.toNat + j.val) else s.reg j

/-- I after FX55 or FX65, by LOADSTORE_I_MODE (R504, R505). -/
def State.indexAfterTransfer (s : State) (x : Reg) : Word :=
  match s.config.loadStoreIMode with
  | .unchanged => s.i
  | .increment => s.i + BitVec.ofNat 16 (x.val + 1)

/-- I + V[X] as a natural number (R501). -/
def State.indexSum (s : State) (x : Reg) : Nat := s.i.toNat + (s.reg x).toNat

/-- The N bytes of the sprite at I (spec/45_display.md R531). -/
def State.spriteBytes (s : State) (n : Nibble) : List Byte := s.readBytes s.i.toNat n.toNat

end Sys2Proof.Machine
end

