-- ==== Sys2Proof/Machine/ControlTransfer.lean ====
section
/-! DEFINITION. Control transfer: RET, JP, CALL, JP V0 (spec/41_control_transfer.md R420 to R423).
A meaning starts from the state at the start of the cycle: `s.pc` is p, and it makes the advance to p + 2 itself (R403; log
entry 12), so that a fault leaves `s` as it was but for status (R408). -/

namespace Sys2Proof.Machine

/-- RET: `pc <- Pop()`; StackUnderflow when sp = 0 (R420). An empty slot below sp is no state of the machine (R115): named
fault emptySlot (log entry 7). -/
def execRet (s : State) : Host.Outcome State Fault Refusal :=
  match s.advance.pop with
  | none => .next (s.raise .stackUnderflow s.pc)
  | some (none, _) => .fault .emptySlot
  | some (some w, t) => .next (t.setPc w)

/-- JP NNN: `pc <- zext_16(NNN)` (R421). -/
def execJp (nnn : Addr12) (s : State) : Host.Outcome State Fault Refusal :=
  .next (s.advance.setPc (absoluteAddress nnn))

/-- CALL NNN: `Push(p + 2)`, then `pc <- zext_16(NNN)`; StackOverflow when sp = 16 (R422). -/
def execCall (nnn : Addr12) (s : State) : Host.Outcome State Fault Refusal :=
  match s.advance.push s.advance.pc with
  | none => .next (s.raise .stackOverflow s.pc)
  | some t => .next (t.setPc (absoluteAddress nnn))

/-- JP V0, NNN: `pc <- zext_16(NNN) + zext_16(V[0])` (R423). -/
def execJpV0 (nnn : Addr12) (s : State) : Host.Outcome State Fault Refusal :=
  .next (s.advance.setPc (s.offsetTarget nnn))

end Sys2Proof.Machine
end

