-- ==== Sys2Proof/Machine/Flags.lean ====
section
/-! DEFINITION. What the instructions of spec/43_register_alu.md put into VF (R475). -/

namespace Sys2Proof.Machine

/-- A flag as VF holds it: 1 or 0. -/
def flagByte (c : Bool) : Byte := if c then 1 else 0

/-- Carry of 8XY4: `a + b > 255` (R467, R475). -/
def carry (a b : Byte) : Bool := 255 < a.toNat + b.toNat

/-- No borrow in `a - b`: `a >= b` (R468, R470, R475). -/
def noBorrow (a b : Byte) : Bool := b.toNat ≤ a.toNat

/-- The bit 8XY6 shifts out: bit 0 (R469). -/
def shiftedOutRight (b : Byte) : Bool := b.getLsbD 0

/-- The bit 8XYE shifts out: bit 7 (R471). -/
def shiftedOutLeft (b : Byte) : Bool := b.getLsbD 7

end Sys2Proof.Machine
end

