-- ==== Sys2Proof/Machine/Display.lean ====
section
/-! DEFINITION. Display: CLS, DRW and the sprite-drawing pixel writer (spec/45_display.md R530 to R534). -/

namespace Sys2Proof.Machine

/-- What drawing has produced so far: the framebuffer, and whether a lit pixel has been turned off (R534). -/
abbrev Canvas := Framebuffer × Bool

/-- One column of a sprite row: a set bit inside the framebuffer flips its pixel, and is a collision if the pixel was lit;
anything else changes nothing (R531, R533, R534). -/
def drawPixel (c : Canvas) (x y : Nat) (bit : Bool) : Canvas :=
  if bit && x < 64 && y < 32 then (c.1.flip x y, c.2 || c.1.pixel x y) else c

/-- Columns k to 7 of one row, left to right: bit 7 - k of the byte is column x0 + k (R531, R532; the bit order is PRESUMED by
the spec itself, 93_implementation_defined.md I4: log entry 14). -/
def drawRow (c : Canvas) (x0 y : Nat) (b : Byte) : Canvas :=
  (List.range 8).foldl (fun c k => drawPixel c (x0 + k) y (b.getLsbD (7 - k))) c

/-- The rows top to bottom, row r at y0 + r; drawing stops at the bottom edge (R531, R533). -/
def drawRows (c : Canvas) (x0 : Nat) : Nat → List Byte → Canvas
  | _, [] => c
  | y, b :: bs => if 32 ≤ y then c else drawRows (drawRow c x0 y b) x0 (y + 1) bs

/-- The sprite of DXYN drawn on the framebuffer, its coordinates read before VF is written (R531). -/
def State.sprite (s : State) (x y : Reg) (n : Nibble) : Canvas :=
  drawRows (s.fb, false) (s.reg x).toNat (s.reg y).toNat (s.spriteBytes n)

/-- CLS: all pixels off, redraw pending (R530). -/
def execCls (s : State) : Host.Outcome State Fault Refusal :=
  .next ((s.advance.setFb Framebuffer.blank).setRedraw true)

/-- DRW VX, VY, N: the sprite, then VF, then redraw; the range check covers all N rows (R531). -/
def execDrw (x y : Reg) (n : Nibble) (s : State) : Host.Outcome State Fault Refusal :=
  if s.accessFits n.toNat then
    .next (((s.advance.setFb (s.sprite x y n).1).setFlag (flagByte (s.sprite x y n).2)).setRedraw true)
  else .next (s.raise .memoryOutOfBounds s.i)

end Sys2Proof.Machine
end

