-- ==== Sys2Proof/Machine/IndexMemory.lean ====
section
/-! DEFINITION. The address register and the memory transfers: LD I, ADD I, LD F, LD B, LD [I], LD VX [I]
(spec/44_index_and_memory.md R500 to R505). A transfer checks its whole range before any effect (spec/20_memory.md R206). -/

namespace Sys2Proof.Machine

/-- LD I, NNN (R500). -/
def execLdI (nnn : Addr12) (s : State) : Host.Outcome State Fault Refusal :=
  .next (s.advance.setI (absoluteAddress nnn))

/-- ADD I, VX: IndexOverflow above 0xFFFF; VF unchanged (R501). -/
def execAddI (x : Reg) (s : State) : Host.Outcome State Fault Refusal :=
  if 0xFFFF < s.indexSum x then .next (s.raise .indexOverflow s.i)
  else .next (s.advance.setI (BitVec.ofNat 16 (s.indexSum x)))

/-- LD F, VX (R502). -/
def execLdF (x : Reg) (s : State) : Host.Outcome State Fault Refusal :=
  .next (s.advance.setI (s.glyphAddress x))

/-- LD B, VX: three digits at I, I + 1, I + 2 (R503). -/
def execLdB (x : Reg) (s : State) : Host.Outcome State Fault Refusal :=
  if s.accessFits 3 then .next (s.advance.writeBytes s.i.toNat (bcdDigits (s.reg x)))
  else .next (s.raise .memoryOutOfBounds s.i)

/-- LD [I], VX: V[0..X] to mem[I..I+X] (R504). -/
def execLdMemVx (x : Reg) (s : State) : Host.Outcome State Fault Refusal :=
  if s.accessFits (x.val + 1) then
    .next ((s.advance.writeBytes s.i.toNat (s.regsUpTo x)).setI (s.indexAfterTransfer x))
  else .next (s.raise .memoryOutOfBounds s.i)

/-- LD VX, [I]: mem[I..I+X] to V[0..X] (R505). -/
def execLdVxMem (x : Reg) (s : State) : Host.Outcome State Fault Refusal :=
  if s.accessFits (x.val + 1) then .next ((s.advance.setRegs (s.regsLoaded x)).setI (s.indexAfterTransfer x))
  else .next (s.raise .memoryOutOfBounds s.i)

end Sys2Proof.Machine
end

