-- ==== Sys2Proof/Machine/RegisterAlu.lean ====
section
/-! DEFINITION. Register ALU: LD, ADD, OR, AND, XOR, SUB, SHR, SUBN, SHL, RND (spec/43_register_alu.md R460 to R482).
BitVec arithmetic of width 8 is the reduction modulo 256 of R475. -/

namespace Sys2Proof.Machine

/-- The write of a result that sets no flag. -/
def State.withResult (s : State) (x : Reg) (r : Byte) : State := s.advance.setV x r

/-- The write of a result and then of its flag: VF last, so it is what VF holds when X = 15 (R101, R460). -/
def State.withResultAndFlag (s : State) (x : Reg) (r : Byte) (f : Bool) : State := (s.withResult x r).setFlag (flagByte f)

/-- LD VX, NN (R461). -/
def execLdImm (x : Reg) (nn : Byte) (s : State) : Host.Outcome State Fault Refusal :=
  .next (s.withResult x nn)

/-- ADD VX, NN: modulo 256, no flag (R462; the canonical sum, spec/90_conflicts.md C1). -/
def execAddImm (x : Reg) (nn : Byte) (s : State) : Host.Outcome State Fault Refusal :=
  .next (s.withResult x (s.reg x + nn))

/-- LD VX, VY (R463). -/
def execLdReg (x y : Reg) (s : State) : Host.Outcome State Fault Refusal :=
  .next (s.withResult x (s.reg y))

/-- OR VX, VY: VF is not written as a flag (R464). -/
def execOrReg (x y : Reg) (s : State) : Host.Outcome State Fault Refusal :=
  .next (s.withResult x (s.reg x ||| s.reg y))

/-- AND VX, VY (R465). -/
def execAndReg (x y : Reg) (s : State) : Host.Outcome State Fault Refusal :=
  .next (s.withResult x (s.reg x &&& s.reg y))

/-- XOR VX, VY (R466). -/
def execXorReg (x y : Reg) (s : State) : Host.Outcome State Fault Refusal :=
  .next (s.withResult x (s.reg x ^^^ s.reg y))

/-- ADD VX, VY: VF = carry (R467). -/
def execAddReg (x y : Reg) (s : State) : Host.Outcome State Fault Refusal :=
  .next (s.withResultAndFlag x (s.reg x + s.reg y) (carry (s.reg x) (s.reg y)))

/-- SUB VX, VY: V[X] - V[Y], VF = no borrow (R468). -/
def execSubReg (x y : Reg) (s : State) : Host.Outcome State Fault Refusal :=
  .next (s.withResultAndFlag x (s.reg x - s.reg y) (noBorrow (s.reg x) (s.reg y)))

/-- SHR VX {, VY}: VF = bit 0 of the operand (R469). -/
def execShr (x y : Reg) (s : State) : Host.Outcome State Fault Refusal :=
  .next (s.withResultAndFlag x (s.shiftOperand x y >>> 1) (shiftedOutRight (s.shiftOperand x y)))

/-- SUBN VX, VY: V[Y] - V[X], VF = no borrow (R470). -/
def execSubn (x y : Reg) (s : State) : Host.Outcome State Fault Refusal :=
  .next (s.withResultAndFlag x (s.reg y - s.reg x) (noBorrow (s.reg y) (s.reg x)))

/-- SHL VX {, VY}: VF = bit 7 of the operand (R471). -/
def execShl (x y : Reg) (s : State) : Host.Outcome State Fault Refusal :=
  .next (s.withResultAndFlag x (s.shiftOperand x y <<< 1) (shiftedOutLeft (s.shiftOperand x y)))

/-- RND VX, NN: one fresh draw, ANDed with NN (R482); the draw is a free value (log entry 3). -/
def execRnd (x : Reg) (nn : Byte) (s : State) : Host.Outcome State Fault Refusal :=
  .next (s.takeDraw.withResult x (s.nextDraw &&& nn))

end Sys2Proof.Machine
end

