-- ==== Sys2Proof/Machine/Skips.lean ====
section
/-! DEFINITION. Conditional skips: SE, SNE, SKP, SKNP (spec/42_skips.md R440 to R446). -/

namespace Sys2Proof.Machine

/-- SE VX, NN: skip if V[X] = NN (R441). -/
def execSeImm (x : Reg) (nn : Byte) (s : State) : Host.Outcome State Fault Refusal :=
  .next (s.advance.skipIf (s.reg x == nn))

/-- SNE VX, NN: skip if V[X] != NN (R442). -/
def execSneImm (x : Reg) (nn : Byte) (s : State) : Host.Outcome State Fault Refusal :=
  .next (s.advance.skipIf (s.reg x != nn))

/-- SE VX, VY: skip if V[X] = V[Y] (R443). -/
def execSeReg (x y : Reg) (s : State) : Host.Outcome State Fault Refusal :=
  .next (s.advance.skipIf (s.reg x == s.reg y))

/-- SNE VX, VY: skip if V[X] != V[Y] (R444). -/
def execSneReg (x y : Reg) (s : State) : Host.Outcome State Fault Refusal :=
  .next (s.advance.skipIf (s.reg x != s.reg y))

/-- SKP VX: skip if the latch holds the key V[X]; an empty latch never skips (R445). -/
def execSkp (x : Reg) (s : State) : Host.Outcome State Fault Refusal :=
  .next (s.advance.skipIf (s.keyMatches x))

/-- SKNP VX: skip unless the latch holds the key V[X] (R446). -/
def execSknp (x : Reg) (s : State) : Host.Outcome State Fault Refusal :=
  .next (s.advance.skipIf (!s.keyMatches x))

end Sys2Proof.Machine
end

