-- ==== Sys2Proof/Machine/TimersKeypad.lean ====
section
/-! DEFINITION. Timers and keypad: LD VX DT, LD VX K, LD DT, LD ST (spec/46_timers_and_keypad.md R560 to R563).
The countdown of the same cycle comes after the instruction (spec/40_cycle.md R406, R407), in `cycle`. -/

namespace Sys2Proof.Machine

/-- LD VX, DT: dt before this cycle's countdown (R560). -/
def execLdVxDt (x : Reg) (s : State) : Host.Outcome State Fault Refusal :=
  .next (s.advance.setV x s.dt)

/-- LD VX, K: with no key, back to this instruction's own address; with one, V[X] is its code and the latch keeps it (R561). -/
def execLdVxK (x : Reg) (s : State) : Host.Outcome State Fault Refusal :=
  match s.key with
  | none => .next (s.advance.setPc (s.advance.pc - 2))
  | some k => .next (s.advance.setV x (k.setWidth 8))

/-- LD DT, VX (R562). -/
def execLdDtVx (x : Reg) (s : State) : Host.Outcome State Fault Refusal :=
  .next (s.advance.setDt (s.reg x))

/-- LD ST, VX: a value other than 0 emits ToneStart (R563). -/
def execLdStVx (x : Reg) (s : State) : Host.Outcome State Fault Refusal :=
  if s.reg x = 0 then .next (s.advance.setSt (s.reg x))
  else .next ((s.advance.setSt (s.reg x)).emit .toneStart)

end Sys2Proof.Machine
end

