-- ==== Sys2Proof/Machine/Unassigned.lean ====
section
/-! DEFINITION. The unassigned sub-cases: SYS, NOP8, NOPE, NOPF (spec/47_unassigned_encodings.md R590 to R593).
Each advances pc and nothing else; the cycle counts the timers down. -/

namespace Sys2Proof.Machine

/-- The effect of a no-op (spec/30_encoding.md R308). -/
def State.noOp (s : State) : State := s.advance

/-- SYS NNN (R590). -/
def execSys (_nnn : Addr12) (s : State) : Host.Outcome State Fault Refusal := .next s.noOp

/-- NOP8 (R591). -/
def execNop8 (_x _y : Reg) (_n : Nibble) (s : State) : Host.Outcome State Fault Refusal := .next s.noOp

/-- NOPE: the key latch is not read (R592). -/
def execNope (_x : Reg) (_nn : Byte) (s : State) : Host.Outcome State Fault Refusal := .next s.noOp

/-- NOPF (R593). -/
def execNopf (_x : Reg) (_nn : Byte) (s : State) : Host.Outcome State Fault Refusal := .next s.noOp

end Sys2Proof.Machine
end

