-- ==== Sys2Proof/Machine/Cycle.lean ====
section
/-! DEFINITION. One cycle, and the engine that performs it while Running (spec/40_cycle.md R400 to R409). -/

namespace Sys2Proof.Machine

/-- R406, R407: a cycle that commits counts the timers down, one that faulted does not (R408). A cycle starts in a state that is
not Faulted, so a Faulted state after the instruction is one the instruction's fault has left. -/
def State.endCycle (t : State) : State := if t.status.isFaulted then t else t.countTimers

/-- R409, the whole cycle: the fetch check, the fetch, the instruction with its advance of pc, the countdown. -/
def cycle (s : State) : Host.Outcome State Fault Refusal :=
  if s.fetchFaults then .next (s.raise .outOfBoundsFetch s.pc)
  else
    match exec (decodeWord s.fetchWord) s with
    | .next t => .next t.endCycle
    | .fault r => .fault r
    | .refused r => .refused r

/-- The engine's own move (R400): one cycle while Running. In Stopped, Paused and Faulted the engine idles, with no cycle and no
countdown (spec/60_exceptions.md R654, R662); a cycle in Stopped or Paused is the host's step(), `hostStep` of HostPort (R653). -/
def engine (s : State) : Host.Outcome State Fault Refusal := if s.status = .running then cycle s else .next s

/-- The two bytes of an instruction word, stored where the next fetch reads them. -/
def State.placeWord (s : State) (w : Word) : State := s.writeBytes s.pc.toNat [highByte w, lowByte w]

/-- What the host's loadProgram and then run() would do for one word at pc (spec/70_reset_and_hazards.md R703; log entry 6). -/
def State.placeAndRun (s : State) (w : Word) : State := (s.placeWord w).setStatus .running

end Sys2Proof.Machine
end

