-- ==== Sys2Proof/Machine/Step.lean ====
section
/-! DEFINITION. The machine's step: the engine's own move (spec/40_cycle.md R400, R409). -/

namespace Sys2Proof.Machine

/-- One step of the machine: a cycle while Running, nothing in any other status. -/
def step (s : State) : Host.Outcome State Fault Refusal := engine s

/-- `s` with the instruction whose bits are `w` (bit 0 the least significant bit of the one 16-bit word; bits from `nbits` up 0)
stored at pc and pc + 1, big-endian (R202), and the engine Running, as the host's loadProgram and run would leave it (R701, R652;
log entry 6): the very next step runs that instruction. -/
def State.withFetchWord (s : State) (nbits w : Nat) : State := s.placeAndRun (BitVec.ofNat 16 (w % 2 ^ nbits))

end Sys2Proof.Machine
end

