-- ==== Sys2Proof/Machine/HostPort.lean ====
section
/-! DEFINITION. The host's transactions on the core, each one atomic move between two cycles (spec/60_exceptions.md R640 to R657;
spec/70_reset_and_hazards.md R700 to R705). What the host makes of pixels and tones is out of scope (spec/00_scope.md R7). -/

namespace Sys2Proof.Machine

/-- What the host may ask. -/
inductive Request where
  /-- R640. -/
  | setKey (k : Nibble)
  /-- R640. -/
  | clearKey
  /-- R641. -/
  | readFramebuffer
  /-- R642. -/
  | observeRedraw
  /-- R643. -/
  | readEvents
  /-- R610: the host can read status. -/
  | readStatus
  /-- R650. -/
  | reset
  /-- R651. -/
  | loadProgram (bytes : List Byte)
  /-- R652. -/
  | run
  /-- R653. -/
  | step
  /-- R654. -/
  | pause
  /-- R655. -/
  | resume
  /-- R656. -/
  | stop
  deriving DecidableEq, Repr

/-- What a transaction returns to the host. -/
inductive Reply where
  | done
  | pixels (fb : Framebuffer)
  | redraw (r : Bool)
  | events (es : List Event)
  | status (x : Status)
  /-- A load that succeeded (R701). -/
  | loaded
  /-- A program longer than 3584 bytes (R605, R704). -/
  | loadError
  deriving DecidableEq, Repr

/-- The answer of a transaction: the state after it and the reply, or a named stop. -/
abbrev Answer := Host.Outcome (State × Reply) Fault Refusal

/-- The statuses in which reset and load are allowed (R645). -/
def Status.allowsLoad : Status → Bool
  | .stopped | .faulted _ _ => true
  | .running | .paused => false

/-- The statuses in which step() performs a cycle (R653). -/
def Status.allowsStep : Status → Bool
  | .stopped | .paused => true
  | .running | .faulted _ _ => false

/-- The state that reset() leaves: R700 sets everything to its value of R130 and does not write the key latch; the parameters are
fixed, and the draws to come stay fresh (log entry 3). -/
def State.afterReset (s : State) : State := { State.reset with key := s.key, draws := s.draws, config := s.config }

/-- R640: set the latch. -/
def hostSetKey (k : Nibble) (s : State) : Answer := .next (s.setKey (some k), .done)

/-- R640: clear the latch. -/
def hostClearKey (s : State) : Answer := .next (s.setKey none, .done)

/-- R641: read all of fb; nothing changes. -/
def hostReadFramebuffer (s : State) : Answer := .next (s, .pixels s.fb)

/-- R642: return redraw and clear it, in one step. -/
def hostObserveRedraw (s : State) : Answer := .next (s.setRedraw false, .redraw s.redraw)

/-- R643: read the events, in the order they were emitted; nothing changes (log entry 10). -/
def hostReadEvents (s : State) : Answer := .next (s, .events s.events)

/-- R610: read status; nothing changes. -/
def hostReadStatus (s : State) : Answer := .next (s, .status s.status)

/-- R650: reset, in Stopped and Faulted; elsewhere no move (R645; log entry 9). -/
def hostReset (s : State) : Answer :=
  if s.status.allowsLoad then .next (s.afterReset, .done) else .refused (.hostDuty "reset")

/-- R651, R701, R704: load, in Stopped and Faulted; elsewhere no move (R645; log entry 9). A program over 3584 bytes changes
nothing; any other goes to 512 and up, and nothing else changes. -/
def hostLoadProgram (bytes : List Byte) (s : State) : Answer :=
  if s.status.allowsLoad then
    if programMax < bytes.length then .next (s, .loadError) else .next (s.writeBytes programOrigin bytes, .loaded)
  else .refused (.hostDuty "loadProgram")

/-- R652: Stopped to Running; in any other status nothing (R657). -/
def hostRun (s : State) : Answer := .next (if s.status = .stopped then s.setStatus .running else s, .done)

/-- R653: one cycle, from Stopped or Paused; in any other status nothing (R657; for Running: log entry 8). -/
def hostStep (s : State) : Answer :=
  if s.status.allowsStep then
    match cycle s with
    | .next t => .next (t, .done)
    | .fault r => .fault r
    | .refused r => .refused r
  else .next (s, .done)

/-- R654: Running to Paused; in any other status nothing (R657). -/
def hostPause (s : State) : Answer := .next (if s.status = .running then s.setStatus .paused else s, .done)

/-- R655: Paused to Running; in any other status nothing (R657). -/
def hostResume (s : State) : Answer := .next (if s.status = .paused then s.setStatus .running else s, .done)

/-- R656: Running or Paused to Stopped, all other state kept; in any other status nothing (R657). -/
def hostStop (s : State) : Answer :=
  .next (if s.status = .running || s.status = .paused then s.setStatus .stopped else s, .done)

/-- One transaction of the host. -/
def transact (r : Request) (s : State) : Answer :=
  match r with
  | .setKey k => hostSetKey k s
  | .clearKey => hostClearKey s
  | .readFramebuffer => hostReadFramebuffer s
  | .observeRedraw => hostObserveRedraw s
  | .readEvents => hostReadEvents s
  | .readStatus => hostReadStatus s
  | .reset => hostReset s
  | .loadProgram bytes => hostLoadProgram bytes s
  | .run => hostRun s
  | .step => hostStep s
  | .pause => hostPause s
  | .resume => hostResume s
  | .stop => hostStop s

end Sys2Proof.Machine
end

