-- ==== Sys2Proof/Safety.lean ====
section
/-! DEFINITION. The terms in which claims about the machine are made: the invariant, the reachable states, how a run ends, and
the words that select an instruction. -/

namespace Sys2Proof

/-- Every word that a mask and a match select (spec/30_encoding.md R306) decodes to `f` of it. -/
def Selects (mask pattern : Word) (f : Word → Instr) : Prop := ∀ w : Word, w &&& mask = pattern → decodeWord w = f w

/-- Every word of a family, but for those with the function of another instruction, decodes to `f` of it (the fallback rows of
R306, where `ok` says that no earlier row matches). -/
def SelectsElse (pattern : Word) (ok : Word → Prop) (f : Word → Instr) : Prop :=
  ∀ w : Word, w &&& 0xF000 = pattern → ok w → decodeWord w = f w

/-- The general registers an instruction writes: the "writes" column of the table of spec/10_state.md R103. -/
def Instr.writesReg : Instr → Reg → Bool
  | .ldImm x _, r | .addImm x _, r | .ldReg x _, r | .orReg x _, r | .andReg x _, r | .xorReg x _, r | .rnd x _, r
  | .ldVxDt x, r | .ldVxK x, r => r == x
  | .addReg x _, r | .subReg x _, r | .subn x _, r | .shr x _, r | .shl x _, r => r == x || r == 15
  | .drw _ _ _, r => r == 15
  | .ldVxMem x, r => r ≤ x
  | .cls, _ | .ret, _ | .sys _, _ | .jp _, _ | .call _, _ | .seImm _ _, _ | .sneImm _ _, _ | .seReg _ _, _ | .nop8 _ _ _, _
  | .sneReg _ _, _ | .ldI _, _ | .jpV0 _, _ | .skp _, _ | .sknp _, _ | .nope _ _, _ | .ldDtVx _, _ | .ldStVx _, _
  | .addI _, _ | .ldF _, _ | .ldB _, _ | .ldMemVx _, _ | .nopf _ _, _ => false

/-- The bits of a word that its instruction's format uses (spec/30_encoding.md R303, R309): all but bits 11:8 of CLS and RET and
bits 3:0 of 5XYN and 9XYN. -/
def Instr.usedBits : Instr → Word
  | .cls | .ret => 0xF0FF
  | .seReg _ _ | .sneReg _ _ => 0xFFF0
  | .sys _ | .jp _ | .call _ | .seImm _ _ | .sneImm _ _ | .ldImm _ _ | .addImm _ _ | .ldReg _ _ | .orReg _ _ | .andReg _ _
  | .xorReg _ _ | .addReg _ _ | .subReg _ _ | .shr _ _ | .subn _ _ | .shl _ _ | .nop8 _ _ _ | .ldI _ | .jpV0 _ | .rnd _ _
  | .drw _ _ _ | .skp _ | .sknp _ | .nope _ _ | .ldVxDt _ | .ldVxK _ | .ldDtVx _ | .ldStVx _ | .addI _ | .ldF _ | .ldB _
  | .ldMemVx _ | .ldVxMem _ | .nopf _ _ => 0xFFFF

namespace Machine

/-- Whether the latch holds the key whose code is V[X] (spec/42_skips.md R445). -/
def State.HoldsKey (s : State) (x : Reg) : Prop := ∃ k, s.key = some k ∧ k.toNat = (s.reg x).toNat

/-- The condition under which an instruction skips (spec/42_skips.md R441 to R446); no other instruction does. -/
def State.TakesSkip (s : State) : Instr → Prop
  | .seImm x nn => (s.reg x).toNat = nn.toNat
  | .sneImm x nn => (s.reg x).toNat ≠ nn.toNat
  | .seReg x y => (s.reg x).toNat = (s.reg y).toNat
  | .sneReg x y => (s.reg x).toNat ≠ (s.reg y).toNat
  | .skp x => s.HoldsKey x
  | .sknp x => ¬ s.HoldsKey x
  | .cls | .ret | .sys _ | .jp _ | .call _ | .ldImm _ _ | .addImm _ _ | .ldReg _ _ | .orReg _ _ | .andReg _ _ | .xorReg _ _
  | .addReg _ _ | .subReg _ _ | .shr _ _ | .subn _ _ | .shl _ _ | .nop8 _ _ _ | .ldI _ | .jpV0 _ | .rnd _ _ | .drw _ _ _
  | .nope _ _ | .ldVxDt _ | .ldVxK _ | .ldDtVx _ | .ldStVx _ | .addI _ | .ldF _ | .ldB _ | .ldMemVx _ | .ldVxMem _
  | .nopf _ _ => False

/-- Whether the sprite that DXYN reads in `s` has a set bit over column p and row q (spec/45_display.md R531, R532): byte q - V[Y]
of the sprite, counted from I, has bit 7 - (p - V[X]) set. -/
def State.spriteCovers (s : State) (x y : Reg) (n : Nibble) (p q : Nat) : Bool :=
  decide ((s.reg x).toNat ≤ p ∧ p < (s.reg x).toNat + 8 ∧ (s.reg y).toNat ≤ q ∧ q < (s.reg y).toNat + n.toNat) &&
    (s.read8 (s.i.toNat + (q - (s.reg y).toNat))).getLsbD (7 - (p - (s.reg x).toNat))

/-- The conditions of the five faults (spec/60_exceptions.md R600) in a cycle that starts in `s`, where the word at pc selects
`i`, with the cause and the information that each records. -/
def State.FaultsWith (s : State) (i : Instr) : FaultCause → Word → Prop
  | .outOfBoundsFetch, a => a = s.pc ∧ 4094 ≤ s.pc.toNat
  | .stackOverflow, a => a = s.pc ∧ s.pc.toNat < 4094 ∧ s.sp.val = 16 ∧ ∃ nnn, i = .call nnn
  | .stackUnderflow, a => a = s.pc ∧ s.pc.toNat < 4094 ∧ s.sp.val = 0 ∧ i = .ret
  | .memoryOutOfBounds, a => a = s.i ∧ s.pc.toNat < 4094 ∧
      ((∃ x y n, i = .drw x y n ∧ 1 ≤ n.toNat ∧ 4096 ≤ s.i.toNat + n.toNat - 1) ∨
       (∃ x, i = .ldB x ∧ 4096 ≤ s.i.toNat + 2) ∨
       (∃ x, (i = .ldMemVx x ∨ i = .ldVxMem x) ∧ 4096 ≤ s.i.toNat + x.val))
  | .indexOverflow, a => a = s.i ∧ s.pc.toNat < 4094 ∧ ∃ x, i = .addI x ∧ 0xFFFF < s.i.toNat + (s.reg x).toNat

/-- The invariant of the machine: memory is in canonical form; every slot below sp is occupied (spec/10_state.md R115); every
address saved in a slot, popped or not, is p + 2 of a CALL fetched below 4094 (spec/41_control_transfer.md R420); pc is at most
4350, the largest value any rule writes (R113). -/
abbrev State.Inv (s : State) : Prop :=
  Memory.wf s.config.fontData s.mem ∧
  (∀ j : Fin 16, j.val < s.sp.val → s.stack[j] ≠ none) ∧
  (∀ j : Fin 16, ∀ w ∈ s.stack[j], 2 ≤ w.toNat ∧ w.toNat ≤ 4095) ∧
  s.pc.toNat ≤ 4350

/-- The states that the machine and its host can reach (spec/70_reset_and_hazards.md R703, R721): from reset, with any value of
the parameters, any key in the latch and any draws to come, by the engine's steps and by the host's transactions in any order. -/
inductive Reachable : State → Prop where
  | start (c : Config) (k : Option Nibble) (n : Nat) :
      Reachable { State.reset with config := c, key := k, draws := n }
  | step {s t : State} : Reachable s → Machine.step s = .next t → Reachable t
  | host {s t : State} (r : Request) (y : Reply) : Reachable s → transact r s = .next (t, y) → Reachable t

/-! ### How a run ends (spec/70_reset_and_hazards.md R714) -/

/-- A cycle takes `s` to `t` (spec/40_cycle.md R400): the engine's own while Running, or the one of a host's step(). -/
def State.CyclesTo (s t : State) : Prop :=
  (s.status = .running ∧ step s = .next t) ∨ (s.status.allowsStep = true ∧ transact .step s = .next (t, .done))

/-- A cycle that starts in `s` is one of a terminal loop: it commits, and it fetches, at an address p of at most 0xFFF, the word
`0x1000 | p`. -/
def State.atTerminalLoop (s : State) : Bool :=
  !s.status.isFaulted && !s.fetchFaults && s.pc.toNat ≤ 0xFFF && s.fetchWord == (0x1000 ||| s.pc)

/-- The requests that neither end a run nor make a cycle nor begin another run, as reset and a load do. -/
def Request.continuesRun : Request → Bool
  | .setKey _ | .clearKey | .readFramebuffer | .observeRedraw | .readEvents | .readStatus | .run | .pause | .resume => true
  | .reset | .loadProgram _ | .step | .stop => false

/-- The run that begins in `s₀` has come to a state and has not ended: every cycle so far has committed, none was of a terminal
loop, and the host has not stopped it. -/
inductive RunsTo (s₀ : State) : State → Prop where
  | start : RunsTo s₀ s₀
  | cycle {s t : State} : RunsTo s₀ s → s.atTerminalLoop = false → s.CyclesTo t → t.status.isFaulted = false → RunsTo s₀ t
  | host {s t : State} {r : Request} {y : Reply} :
      RunsTo s₀ s → r.continuesRun = true → transact r s = .next (t, y) → RunsTo s₀ t

/-- The three ends of a run. -/
inductive RunEnd where
  | faulted
  | terminalLoop
  | stopped
  deriving DecidableEq, Repr

/-- The run that begins in `s₀` ends in `t`: by a cycle that faulted (the bad end), by the FIRST cycle of a terminal loop (the good
end, in the state after that cycle), or by the host's stop. -/
inductive EndsAt (s₀ : State) : RunEnd → State → Prop where
  | faulted {s t : State} : RunsTo s₀ s → s.CyclesTo t → t.status.isFaulted = true → EndsAt s₀ .faulted t
  | terminalLoop {s t : State} : RunsTo s₀ s → s.atTerminalLoop = true → s.CyclesTo t → EndsAt s₀ .terminalLoop t
  | stopped {s t : State} :
      RunsTo s₀ s → s.status = .running ∨ s.status = .paused → transact .stop s = .next (t, .done) → EndsAt s₀ .stopped t

end Machine
end Sys2Proof
end

