-- ==== Sys2Proof/Certificates/Slice0/Obligations.lean ====
section
/-! DEFINITION. The statements about the machine. Each docstring names the rules of spec/ it formalises. A statement writes the next
state as a record update of the state before, so every field that it does not name is unchanged: that is the frame. Where a
statement rests on a decision the spec marks as its own (spec/92_eei_decisions.md) or on an entry of the assumption log, its
docstring says so and OBLIGATIONS.json gives it the basis 'derived'. -/

open Sys2Proof Sys2Proof.Machine

/-! ### Encoding (spec/30_encoding.md) -/

/-- R301: each field is exactly the bits that its extraction column names, by shift and mask of the word. -/
def Obligations.FieldsAreShiftedMaskedBits : Prop :=
  ∀ w : Word,
    (fieldFamily w).setWidth 16 = (w >>> 12) &&& 0xF ∧
    (BitVec.ofFin (w := 4) (fieldX w)).setWidth 16 = (w >>> 8) &&& 0xF ∧
    (BitVec.ofFin (w := 4) (fieldY w)).setWidth 16 = (w >>> 4) &&& 0xF ∧
    (fieldN w).setWidth 16 = w &&& 0xF ∧
    (fieldNN w).setWidth 16 = w &&& 0xFF ∧
    (fieldNNN w).setWidth 16 = w &&& 0xFFF

/-- R300: the decoder always consumes exactly 2 bytes, high byte first (R202), whatever follows; fewer are refused by name. -/
def Obligations.DecoderConsumesTwoBytes : Prop :=
  ∀ bytes : List Byte,
    (∀ hi lo rest, bytes = hi :: lo :: rest →
      decode bytes = .ok (decodeWord (hi ++ lo), bytes.drop 2)) ∧
    (bytes.length < 2 → decode bytes = .error .truncated)

/-- 30_encoding.md section 3 (the opcode map): every word selects a first row of the map, by mask and match, and the decoder reads
the instruction of that row from it. The assignment of 8XY0 to 8XY3 and 8XY7 and the ignored bits are the spec's own (log
entries 13, 14). -/
def Obligations.DecoderFollowsOpcodeMap : Prop :=
  ∀ w : Word, ∃ r, firstRow w = some r ∧ r.mnemonic = (decodeWord w).mnemonic

/-- 30_encoding.md sections 1 to 3: decoding the bytes of a well-formed instruction gives it back, with every operand at every
value the encoding admits, and leaves the bytes after it. -/
def Obligations.DecodeOfEncodeIsIdentity : Prop :=
  ∀ (i : Instr) (rest : List Byte), i.wf = true → decode (encodeBytes i ++ rest) = .ok (i, rest)

/-- 30_encoding.md sections 1 to 4: every word decodes to a well-formed instruction, whose encoding is the word again but for the
bits its format ignores (log entry 13). -/
def Obligations.EncodeOfDecodeIsWordsUsedBits : Prop :=
  ∀ w : Word, (decodeWord w).wf = true ∧ encode (decodeWord w) = w &&& (decodeWord w).usedBits

/-- A few words written out from the map, one of each family at least (sanity). That 0x05EE is RET and 0x512F and 0x9127 skip on
registers rests on the spec's decisions D17 and D18 (log entry 13). -/
def Obligations.KnownWordsDecode : Prop :=
  decodeWord 0x00E0 = .cls ∧ decodeWord 0x05EE = .ret ∧ decodeWord 0x0123 = .sys 0x123 ∧ decodeWord 0x1234 = .jp 0x234 ∧
  decodeWord 0x2300 = .call 0x300 ∧ decodeWord 0x3342 = .seImm 3 0x42 ∧ decodeWord 0x512F = .seReg 1 2 ∧
  decodeWord 0x4342 = .sneImm 3 0x42 ∧ decodeWord 0x6A05 = .ldImm 10 0x05 ∧ decodeWord 0x7F02 = .addImm 15 0x02 ∧
  decodeWord 0x9127 = .sneReg 1 2 ∧ decodeWord 0xA302 = .ldI 0x302 ∧ decodeWord 0xC30F = .rnd 3 0x0F ∧ decodeWord 0x8F14 = .addReg 15 1 ∧ decodeWord 0x812F = .nop8 1 2 0xF ∧
  decodeWord 0xBFFF = .jpV0 0xFFF ∧ decodeWord 0xD125 = .drw 1 2 5 ∧ decodeWord 0xE29E = .skp 2 ∧
  decodeWord 0xF433 = .ldB 4 ∧ decodeWord 0xF075 = .nopf 0 0x75

/-! ### The cycle (spec/40_cycle.md)

`cycle` is one cycle, whoever performs it; CyclesHappenOnlyWhereAllowed says that the engine's step does while Running and a host's
step() in Stopped and Paused, and that nothing else does. -/

/-- R401, R402: with pc below 4094, mem[p] is bits 15:8 of the fetched word and mem[p+1] is bits 7:0, and the cycle executes that
word; with pc at 4094 or above, the cycle raises OutOfBoundsFetch(pc) and changes nothing else. -/
def Obligations.FetchIsBigEndianBelowLimit : Prop :=
  ∀ s : State, s.status.isFaulted = false →
    (s.pc.toNat < 4094 → ∃ w : Word,
      (∀ k < 8, w.getLsbD (8 + k) = (s.read8 s.pc.toNat).getLsbD k ∧ w.getLsbD k = (s.read8 (s.pc.toNat + 1)).getLsbD k) ∧
      ∀ t, exec (decodeWord w) s = .next t → t.status.isFaulted = false → cycle s = .next t.countTimers) ∧
    (4094 ≤ s.pc.toNat → cycle s = .next { s with status := .faulted .outOfBoundsFetch s.pc })

/-- A step runs the decoded instruction: while Running, where the two bytes at pc decode to i, a step is exec of i at that state,
followed by the timer countdown unless the instruction raised a fault (40_cycle.md R400, R403 to R408; log entry 12: exec makes
the advance of pc). In Stopped and Paused a host's step() is the same, with its reply (60_exceptions.md R653). -/
def Obligations.StepRunsDecodedInstruction : Prop :=
  ∀ (s : State) (i : Instr), s.pc.toNat < 4094 →
    decode [s.read8 s.pc.toNat, s.read8 (s.pc.toNat + 1)] = .ok (i, []) →
    (s.status = .running →
      step s = match exec i s with
        | .next t => .next (if t.status.isFaulted then t else t.countTimers)
        | .fault f => .fault f
        | .refused r => .refused r) ∧
    (s.status = .stopped ∨ s.status = .paused →
      transact .step s = match exec i s with
        | .next t => .next (if t.status.isFaulted then t else t.countTimers, .done)
        | .fault f => .fault f
        | .refused r => .refused r)

/-- R406, R407: a cycle that commits counts each timer down by one while it is positive, from the value the instruction left, and
emits ToneRestart exactly when the sound timer goes from 1 to 0; it changes nothing else of what the instruction left. -/
def Obligations.CommittedCycleCountsTimers : Prop :=
  ∀ s t : State, s.status.isFaulted = false → s.pc.toNat < 4094 →
    exec (decodeWord s.fetchWord) s = .next t → t.status.isFaulted = false →
    ∃ d b : Byte, d.toNat = t.dt.toNat - 1 ∧ b.toNat = t.st.toNat - 1 ∧
      cycle s = .next { t with
        dt := d, st := b, events := if t.st.toNat = 1 then t.events ++ [Event.toneRestart] else t.events }

/-- 60_exceptions.md R610, R611 and 40_cycle.md R408, by the spec's decision D6, and the table of R600: a cycle that faults leaves
every piece of state as it was but for status, which records a cause whose condition holds and its information. -/
def Obligations.FaultingCycleCommitsNothing : Prop :=
  ∀ s t : State, s.status.isFaulted = false → cycle s = .next t → t.status.isFaulted = true →
    ∃ f a, t = { s with status := .faulted f a } ∧ s.FaultsWith (decodeWord s.fetchWord) f a

/-- The converse: whenever the condition of one of the five faults holds, the cycle raises it (R600, decisions D3, D4, D6, D7). -/
def Obligations.FaultConditionRaisesFault : Prop :=
  ∀ (s : State) (f : FaultCause) (a : Word), s.status.isFaulted = false →
    s.FaultsWith (decodeWord s.fetchWord) f a → cycle s = .next { s with status := .faulted f a }

/-- 40_cycle.md R400, 60_exceptions.md R612, R653, R654, R657, R662 (decision D24): the engine performs cycles while Running and
idles, with nothing changed, in Stopped, Paused and Faulted; a host's step() in Stopped or Paused performs one; in Faulted none
happens, and no request of the host but reset changes the status. That a step request in Running is a no-op is read from R657 (log
entry 8). -/
def Obligations.CyclesHappenOnlyWhereAllowed : Prop :=
  ∀ s : State,
    (s.status = .running → step s = cycle s) ∧
    (s.status ≠ .running → step s = .next s) ∧
    (s.status = .stopped ∨ s.status = .paused → ∀ t, transact .step s = .next (t, .done) ↔ cycle s = .next t) ∧
    (s.status = .running ∨ s.status.isFaulted = true → transact .step s = .next (s, .done)) ∧
    (s.status.isFaulted = true → ∀ r t y, r ≠ .reset → transact r s = .next (t, y) → t.status = s.status)

/-- 40_cycle.md R411 (derived by the spec): where pc stands after a committed cycle that fetched at p. A skip that is taken, and a
FX0A that waits, are those whose conditions R441 to R446 and R561 give. -/
def Obligations.PcAfterCommittedCycle : Prop :=
  ∀ s t : State, s.status.isFaulted = false → cycle s = .next t → t.status.isFaulted = false →
    (decodeWord s.fetchWord = .ret ∧ (∃ hs : 0 < s.sp.val, s.stack[s.sp.val - 1] = some t.pc)) ∨
    (∃ nnn, (decodeWord s.fetchWord = .jp nnn ∨ decodeWord s.fetchWord = .call nnn) ∧ t.pc.toNat = nnn.toNat) ∨
    (∃ nnn, decodeWord s.fetchWord = .jpV0 nnn ∧ t.pc.toNat = nnn.toNat + (s.reg 0).toNat) ∨
    (s.TakesSkip (decodeWord s.fetchWord) ∧ t.pc.toNat = s.pc.toNat + 4) ∨
    (∃ x, decodeWord s.fetchWord = .ldVxK x ∧ s.key = none ∧ t.pc = s.pc) ∨
    ((∀ nnn, decodeWord s.fetchWord ≠ .jp nnn ∧ decodeWord s.fetchWord ≠ .call nnn ∧ decodeWord s.fetchWord ≠ .jpV0 nnn) ∧
      decodeWord s.fetchWord ≠ .ret ∧ ¬ s.TakesSkip (decodeWord s.fetchWord) ∧
      (∀ x, decodeWord s.fetchWord = .ldVxK x → s.key ≠ none) ∧ t.pc.toNat = s.pc.toNat + 2)

/-! ### Control transfer (spec/41_control_transfer.md) -/

/-- R421: JP NNN. A jump to its own address leaves the state as it was, so the next cycle fetches the same word; the next fetch of
a target of 4094 or above faults. -/
def Obligations.JumpGoesToAddress : Prop :=
  Selects 0xF000 0x1000 (fun w => .jp (fieldNNN w)) ∧
  ∀ (nnn : Addr12) (s : State), ∃ p : Word, p.toNat = nnn.toNat ∧
    exec (.jp nnn) s = .next { s with pc := p } ∧
    (nnn.toNat = s.pc.toNat → exec (.jp nnn) s = .next s) ∧
    (s.status.isFaulted = false → 4094 ≤ nnn.toNat →
      cycle { s with pc := p } = .next { s with pc := p, status := .faulted .outOfBoundsFetch p })

/-- 41_control_transfer.md R422 (decision D7): with room on the stack CALL saves p + 2 in the slot at sp and goes to NNN; with
sp = 16 it raises StackOverflow(p) and commits nothing. -/
def Obligations.CallPushesReturnAddress : Prop :=
  Selects 0xF000 0x2000 (fun w => .call (fieldNNN w)) ∧
  ∀ (nnn : Addr12) (s : State),
    (s.sp.val < 16 → ∃ t, exec (.call nnn) s = .next t ∧ t.pc.toNat = nnn.toNat ∧ t.sp.val = s.sp.val + 1 ∧
      (∀ j : Fin 16, t.stack[j] = if j.val = s.sp.val then some (s.pc + 2) else s.stack[j]) ∧
      t = { s with pc := t.pc, sp := t.sp, stack := t.stack }) ∧
    (s.sp.val = 16 → exec (.call nnn) s = .next { s with status := .faulted .stackOverflow s.pc })

/-- 41_control_transfer.md R420 (decision D7): RET takes pc from the slot below sp, whose contents stay; with sp = 0 it raises
StackUnderflow(p) and commits nothing. That a slot below sp which is empty stops the machine is the model's choice (log entry 7). -/
def Obligations.ReturnPopsSavedAddress : Prop :=
  Selects 0xF0FF 0x00EE (fun _ => .ret) ∧
  ∀ s : State,
    (∀ (hs : 0 < s.sp.val) (w : Word), s.stack[s.sp.val - 1] = some w → ∃ k : Fin 17, k.val = s.sp.val - 1 ∧
      exec .ret s = .next { s with pc := w, sp := k }) ∧
    (s.sp.val = 0 → exec .ret s = .next { s with status := .faulted .stackUnderflow s.pc }) ∧
    (∀ hs : 0 < s.sp.val, s.stack[s.sp.val - 1] = none → exec .ret s = .fault .emptySlot)

/-- 41_control_transfer.md, "call-then-return" of R422 and R420 (decision D7): a RET after a CALL, wherever the subroutine has gone,
comes back to the instruction after the CALL, with sp as before and every slot below it untouched. -/
def Obligations.CallThenReturnComesBack : Prop :=
  ∀ (nnn : Addr12) (s : State) (p : Word), s.sp.val < 16 →
    ∃ t u, exec (.call nnn) s = .next t ∧ exec .ret { t with pc := p } = .next u ∧
      u.pc = s.pc + 2 ∧ u.sp = s.sp ∧ (∀ j : Fin 16, j.val < s.sp.val → u.stack[j] = s.stack[j]) ∧
      u = { s with pc := u.pc, stack := u.stack }

/-- 41_control_transfer.md R423 (decision D2): JP V0, NNN goes to NNN + V[0], not reduced modulo 4096. -/
def Obligations.JumpWithOffsetIsNotReduced : Prop :=
  Selects 0xF000 0xB000 (fun w => .jpV0 (fieldNNN w)) ∧
  ∀ (nnn : Addr12) (s : State), ∃ p : Word, p.toNat = nnn.toNat + (s.reg 0).toNat ∧
    exec (.jpV0 nnn) s = .next { s with pc := p }

/-! ### Skips (spec/42_skips.md) -/

/-- R441, R442: SE VX, NN and SNE VX, NN. -/
def Obligations.SkipOnImmediate : Prop :=
  Selects 0xF000 0x3000 (fun w => .seImm (fieldX w) (fieldNN w)) ∧
  Selects 0xF000 0x4000 (fun w => .sneImm (fieldX w) (fieldNN w)) ∧
  ∀ (x : Reg) (nn : Byte) (s : State),
    exec (.seImm x nn) s = .next { s with pc := if (s.reg x).toNat = nn.toNat then s.pc + 4 else s.pc + 2 } ∧
    exec (.sneImm x nn) s = .next { s with pc := if (s.reg x).toNat = nn.toNat then s.pc + 2 else s.pc + 4 }

/-- 42_skips.md R443, R444 (decision D18: N is ignored): SE VX, VY and SNE VX, VY. -/
def Obligations.SkipOnRegisters : Prop :=
  Selects 0xF000 0x5000 (fun w => .seReg (fieldX w) (fieldY w)) ∧
  Selects 0xF000 0x9000 (fun w => .sneReg (fieldX w) (fieldY w)) ∧
  ∀ (x y : Reg) (s : State),
    exec (.seReg x y) s = .next { s with pc := if (s.reg x).toNat = (s.reg y).toNat then s.pc + 4 else s.pc + 2 } ∧
    exec (.sneReg x y) s = .next { s with pc := if (s.reg x).toNat = (s.reg y).toNat then s.pc + 2 else s.pc + 4 }

/-- 42_skips.md R445, R446 (decision D19): SKP skips when the latch holds a key whose code is V[X], SKNP in every other case: an
empty latch, another key, and a V[X] of 16 or more. The latch keeps its value. -/
def Obligations.SkipOnKeyLatch : Prop :=
  Selects 0xF0FF 0xE09E (fun w => .skp (fieldX w)) ∧
  Selects 0xF0FF 0xE0A1 (fun w => .sknp (fieldX w)) ∧
  ∀ (x : Reg) (s : State),
    ((∃ k, s.key = some k ∧ k.toNat = (s.reg x).toNat) →
      exec (.skp x) s = .next { s with pc := s.pc + 4 } ∧ exec (.sknp x) s = .next { s with pc := s.pc + 2 }) ∧
    ((∀ k, s.key = some k → k.toNat ≠ (s.reg x).toNat) →
      exec (.skp x) s = .next { s with pc := s.pc + 2 } ∧ exec (.sknp x) s = .next { s with pc := s.pc + 4 })

/-! ### Register ALU (spec/43_register_alu.md) -/

/-- R461: LD VX, NN. -/
def Obligations.LoadImmediate : Prop :=
  Selects 0xF000 0x6000 (fun w => .ldImm (fieldX w) (fieldNN w)) ∧
  ∀ (x : Reg) (nn : Byte) (s : State), ∃ t, exec (.ldImm x nn) s = .next t ∧
    t = { s with pc := s.pc + 2, v := t.v } ∧
    t.reg x = nn ∧ ∀ r : Reg, r ≠ x → t.reg r = s.reg r

/-- R462: ADD VX, NN, modulo 256; no flag is written. -/
def Obligations.AddImmediateWraps : Prop :=
  Selects 0xF000 0x7000 (fun w => .addImm (fieldX w) (fieldNN w)) ∧
  ∀ (x : Reg) (nn : Byte) (s : State), ∃ t, exec (.addImm x nn) s = .next t ∧
    t = { s with pc := s.pc + 2, v := t.v } ∧
    (t.reg x).toNat = ((s.reg x).toNat + nn.toNat) % 256 ∧ ∀ r : Reg, r ≠ x → t.reg r = s.reg r

/-- 43_register_alu.md R463 to R466 (functions from general knowledge, log entry 14; no flag by decision D12): copy, OR, AND, XOR,
bit by bit. -/
def Obligations.CopyAndLogicWriteNoFlag : Prop :=
  Selects 0xF00F 0x8000 (fun w => .ldReg (fieldX w) (fieldY w)) ∧
  Selects 0xF00F 0x8001 (fun w => .orReg (fieldX w) (fieldY w)) ∧
  Selects 0xF00F 0x8002 (fun w => .andReg (fieldX w) (fieldY w)) ∧
  Selects 0xF00F 0x8003 (fun w => .xorReg (fieldX w) (fieldY w)) ∧
  ∀ (x y : Reg) (s : State) (i : Instr) (op : Bool → Bool → Bool),
    (i = .ldReg x y ∧ op = (fun _ b => b)) ∨ (i = .orReg x y ∧ op = or) ∨ (i = .andReg x y ∧ op = and) ∨
      (i = .xorReg x y ∧ op = xor) →
    ∃ t, exec i s = .next t ∧
    t = { s with pc := s.pc + 2, v := t.v } ∧
      (∀ k < 8, (t.reg x).getLsbD k = op ((s.reg x).getLsbD k) ((s.reg y).getLsbD k)) ∧
      ∀ r : Reg, r ≠ x → t.reg r = s.reg r

/-- 43_register_alu.md R467 (decision D10: VF last): ADD VX, VY. -/
def Obligations.AddRegistersSetsCarry : Prop :=
  Selects 0xF00F 0x8004 (fun w => .addReg (fieldX w) (fieldY w)) ∧
  ∀ (x y : Reg) (s : State), ∃ t, exec (.addReg x y) s = .next t ∧
    t = { s with pc := s.pc + 2, v := t.v } ∧
    (t.reg 15).toNat = (if 255 < (s.reg x).toNat + (s.reg y).toNat then 1 else 0) ∧
    (x ≠ 15 → (t.reg x).toNat = ((s.reg x).toNat + (s.reg y).toNat) % 256) ∧
    ∀ r : Reg, r ≠ x → r ≠ 15 → t.reg r = s.reg r

/-- 43_register_alu.md R468, R470 (decisions D10, D11; 8XY7 from general knowledge, log entry 14): SUB VX, VY and SUBN VX, VY, each a
difference a - b with VF = 1 exactly when a >= b, written last. -/
def Obligations.SubtractSetsNoBorrow : Prop :=
  Selects 0xF00F 0x8005 (fun w => .subReg (fieldX w) (fieldY w)) ∧
  Selects 0xF00F 0x8007 (fun w => .subn (fieldX w) (fieldY w)) ∧
  ∀ (x y : Reg) (s : State) (i : Instr) (a b : Nat),
    (i = .subReg x y ∧ a = (s.reg x).toNat ∧ b = (s.reg y).toNat) ∨
      (i = .subn x y ∧ a = (s.reg y).toNat ∧ b = (s.reg x).toNat) →
    ∃ t, exec i s = .next t ∧
    t = { s with pc := s.pc + 2, v := t.v } ∧
      (t.reg 15).toNat = (if b ≤ a then 1 else 0) ∧
      (x ≠ 15 → (t.reg x).toNat = if b ≤ a then a - b else a + 256 - b) ∧
      ∀ r : Reg, r ≠ x → r ≠ 15 → t.reg r = s.reg r

/-- 43_register_alu.md R469, R471 (SHIFT_SOURCE open, D9; VF last, D10): SHR and SHL of the register that SHIFT_SOURCE names, for
both its values. -/
def Obligations.ShiftsSetShiftedOutBit : Prop :=
  Selects 0xF00F 0x8006 (fun w => .shr (fieldX w) (fieldY w)) ∧
  Selects 0xF00F 0x800E (fun w => .shl (fieldX w) (fieldY w)) ∧
  ∀ (x y : Reg) (s : State) (b : Nat),
    (s.config.shiftSource = .vx ∧ b = (s.reg x).toNat) ∨ (s.config.shiftSource = .vy ∧ b = (s.reg y).toNat) →
    (∃ t, exec (.shr x y) s = .next t ∧
    t = { s with pc := s.pc + 2, v := t.v } ∧
      (t.reg 15).toNat = b % 2 ∧ (x ≠ 15 → (t.reg x).toNat = b / 2) ∧ ∀ r : Reg, r ≠ x → r ≠ 15 → t.reg r = s.reg r) ∧
    (∃ t, exec (.shl x y) s = .next t ∧
    t = { s with pc := s.pc + 2, v := t.v } ∧
      (t.reg 15).toNat = b / 128 ∧ (x ≠ 15 → (t.reg x).toNat = b * 2 % 256) ∧ ∀ r : Reg, r ≠ x → r ≠ 15 → t.reg r = s.reg r)

/-- 43_register_alu.md R482 (decision D23; log entry 3): RND VX, NN takes one fresh draw, of which nothing is known, and ANDs it
with NN; with NN = 0 the result is 0 whatever the draw. -/
def Obligations.RandomIsMaskedDraw : Prop :=
  Selects 0xF000 0xC000 (fun w => .rnd (fieldX w) (fieldNN w)) ∧
  ∀ (x : Reg) (nn : Byte) (s : State), ∃ t, exec (.rnd x nn) s = .next t ∧
    t = { s with pc := s.pc + 2, v := t.v, draws := s.draws + 1 } ∧
    (∀ k < 8, (t.reg x).getLsbD k = ((Config.draw s.draws).getLsbD k && nn.getLsbD k)) ∧
    (nn = 0 → t.reg x = 0) ∧ ∀ r : Reg, r ≠ x → t.reg r = s.reg r

/-! ### Address register and memory transfers (spec/44_index_and_memory.md) -/

/-- R500: LD I, NNN. -/
def Obligations.LoadIndex : Prop :=
  Selects 0xF000 0xA000 (fun w => .ldI (fieldNNN w)) ∧
  ∀ (nnn : Addr12) (s : State), ∃ a : Word, a.toNat = nnn.toNat ∧
    exec (.ldI nnn) s = .next { s with pc := s.pc + 2, i := a }

/-- 44_index_and_memory.md R501 (decision D3): ADD I, VX adds, not reduced modulo 4096, and leaves VF; above 0xFFFF it raises
IndexOverflow(I) and commits nothing. -/
def Obligations.AddToIndex : Prop :=
  Selects 0xF0FF 0xF01E (fun w => .addI (fieldX w)) ∧
  ∀ (x : Reg) (s : State),
    (s.i.toNat + (s.reg x).toNat ≤ 0xFFFF → ∃ a : Word, a.toNat = s.i.toNat + (s.reg x).toNat ∧
      exec (.addI x) s = .next { s with pc := s.pc + 2, i := a }) ∧
    (0xFFFF < s.i.toNat + (s.reg x).toNat →
      exec (.addI x) s = .next { s with status := .faulted .indexOverflow s.i })

/-- 44_index_and_memory.md R502 (FONT_INDEX_MODE open, D14): LD F, VX in both modes. -/
def Obligations.FontIndexInBothModes : Prop :=
  Selects 0xF0FF 0xF029 (fun w => .ldF (fieldX w)) ∧
  ∀ (x : Reg) (s : State), ∃ a : Word,
    exec (.ldF x) s = .next { s with pc := s.pc + 2, i := a } ∧
    (s.config.fontIndexMode = .full → a.toNat = (s.reg x).toNat * 5) ∧
    (s.config.fontIndexMode = .lowNibble → a.toNat = (s.reg x).toNat % 16 * 5) ∧
    ((s.reg x).toNat ≤ 15 → a.toNat = (s.reg x).toNat * 5)

/-- 44_index_and_memory.md R503 (range check by decision D4): LD B, VX stores the three decimal digits of V[X] at I, I + 1 and I + 2;
every other byte reads as before. Memory in canonical form is an invariant (StepKeepsInvariant). -/
def Obligations.StoreDecimalDigits : Prop :=
  Selects 0xF0FF 0xF033 (fun w => .ldB (fieldX w)) ∧
  ∀ (x : Reg) (s : State), Memory.wf s.config.fontData s.mem → s.i.toNat + 2 < 4096 →
    ∃ t, exec (.ldB x) s = .next t ∧ t = { s with pc := s.pc + 2, mem := t.mem } ∧
      (t.read8 s.i.toNat).toNat = (s.reg x).toNat / 100 ∧
      (t.read8 (s.i.toNat + 1)).toNat = (s.reg x).toNat / 10 % 10 ∧
      (t.read8 (s.i.toNat + 2)).toNat = (s.reg x).toNat % 10 ∧
      ∀ a, a < s.i.toNat ∨ s.i.toNat + 2 < a → t.read8 a = s.read8 a

/-- 44_index_and_memory.md R504 (D4; LOADSTORE_I_MODE open, D13): LD [I], VX stores V[0] to V[X] from I on; every other byte reads as
before; I stays or becomes I + X + 1, by the mode. -/
def Obligations.StoreRegisters : Prop :=
  Selects 0xF0FF 0xF055 (fun w => .ldMemVx (fieldX w)) ∧
  ∀ (x : Reg) (s : State), Memory.wf s.config.fontData s.mem → s.i.toNat + x.val < 4096 →
    ∃ t, exec (.ldMemVx x) s = .next t ∧ t = { s with pc := s.pc + 2, mem := t.mem, i := t.i } ∧
      (∀ r : Reg, r ≤ x → t.read8 (s.i.toNat + r.val) = s.reg r) ∧
      (∀ a, a < s.i.toNat ∨ s.i.toNat + x.val < a → t.read8 a = s.read8 a) ∧
      (s.config.loadStoreIMode = .unchanged → t.i = s.i) ∧
      (s.config.loadStoreIMode = .increment → t.i.toNat = s.i.toNat + x.val + 1)

/-- 44_index_and_memory.md R505 (D4; LOADSTORE_I_MODE open, D13): LD VX, [I] loads V[0] to V[X] from I on; the registers above X and
all of memory are unchanged; I as in StoreRegisters. -/
def Obligations.LoadRegisters : Prop :=
  Selects 0xF0FF 0xF065 (fun w => .ldVxMem (fieldX w)) ∧
  ∀ (x : Reg) (s : State), s.i.toNat + x.val < 4096 →
    ∃ t, exec (.ldVxMem x) s = .next t ∧ t = { s with pc := s.pc + 2, v := t.v, i := t.i } ∧
      (∀ r : Reg, t.reg r = if r ≤ x then s.read8 (s.i.toNat + r.val) else s.reg r) ∧
      (s.config.loadStoreIMode = .unchanged → t.i = s.i) ∧
      (s.config.loadStoreIMode = .increment → t.i.toNat = s.i.toNat + x.val + 1)

/-- 20_memory.md R206 (decision D4): a data access whose range reaches 4096 raises MemoryOutOfBounds(I) and writes nothing. -/
def Obligations.AccessBeyondMemoryFaults : Prop :=
  ∀ s : State,
    (∀ x y n, 1 ≤ n.toNat → 4096 ≤ s.i.toNat + n.toNat - 1 →
      exec (.drw x y n) s = .next { s with status := .faulted .memoryOutOfBounds s.i }) ∧
    (∀ x, 4096 ≤ s.i.toNat + 2 → exec (.ldB x) s = .next { s with status := .faulted .memoryOutOfBounds s.i }) ∧
    (∀ x : Reg, 4096 ≤ s.i.toNat + x.val →
      exec (.ldMemVx x) s = .next { s with status := .faulted .memoryOutOfBounds s.i } ∧
      exec (.ldVxMem x) s = .next { s with status := .faulted .memoryOutOfBounds s.i })

/-- 20_memory.md R223 (decision D29): the word that the next cycle fetches where FX55 has just stored two registers is those
registers, the lower address first. -/
def Obligations.StoredRegistersAreFetched : Prop :=
  ∀ (x r : Reg) (s : State), Memory.wf s.config.fontData s.mem → s.i.toNat + x.val < 4096 → (hr : r.val + 1 ≤ x.val) →
    (s.pc + 2).toNat = s.i.toNat + r.val →
    ∃ t, exec (.ldMemVx x) s = .next t ∧ t.fetchWord = s.reg r ++ s.reg ⟨r.val + 1, by omega⟩

/-! ### Display (spec/45_display.md) -/

/-- R530: CLS. -/
def Obligations.ClearScreen : Prop :=
  Selects 0xF0FF 0x00E0 (fun _ => .cls) ∧
  ∀ s : State, ∃ fb : Framebuffer, exec .cls s = .next { s with pc := s.pc + 2, fb := fb, redraw := true } ∧
    ∀ (p : Fin 64) (q : Fin 32), fb[p][q] = false

/-- 45_display.md R531 to R534 (decisions D4, D15, D16; bit order from general knowledge, log entry 14): DRW flips exactly the pixels
under a set bit of the sprite, sets VF to whether a lit one was flipped, and sets redraw; with N = 0 nothing is drawn, VF is 0
and no range is checked. -/
def Obligations.DrawFlipsCoveredPixels : Prop :=
  Selects 0xF000 0xD000 (fun w => .drw (fieldX w) (fieldY w) (fieldN w)) ∧
  ∀ (x y : Reg) (n : Nibble) (s : State), n.toNat = 0 ∨ s.i.toNat + n.toNat - 1 < 4096 →
    ∃ t, exec (.drw x y n) s = .next t ∧ t = { s with pc := s.pc + 2, fb := t.fb, v := t.v, redraw := true } ∧
      (∀ p q, p < 64 → q < 32 → t.fb.pixel p q = (s.fb.pixel p q ^^ s.spriteCovers x y n p q)) ∧
      ((∃ p q, p < 64 ∧ q < 32 ∧ s.spriteCovers x y n p q = true ∧ s.fb.pixel p q = true) → t.reg 15 = 1) ∧
      ((∀ p q, p < 64 → q < 32 → s.spriteCovers x y n p q = true → s.fb.pixel p q = false) → t.reg 15 = 0) ∧
      ∀ r : Reg, r ≠ 15 → t.reg r = s.reg r

/-- 45_display.md R535 (derived by the spec from R531, R533): with neither X nor Y 15, drawing the same sprite twice restores the
framebuffer, and the second draw sets VF exactly when the first lit some pixel. -/
def Obligations.DrawTwiceRestoresFramebuffer : Prop :=
  ∀ (x y : Reg) (n : Nibble) (s : State), x ≠ 15 → y ≠ 15 → n.toNat = 0 ∨ s.i.toNat + n.toNat - 1 < 4096 →
    ∃ t u, exec (.drw x y n) s = .next t ∧ exec (.drw x y n) t = .next u ∧ u.fb = s.fb ∧
      (u.reg 15 = 1 ↔ ∃ p q, p < 64 ∧ q < 32 ∧ s.fb.pixel p q = false ∧ t.fb.pixel p q = true)

/-! ### Timers and keypad (spec/46_timers_and_keypad.md) -/

/-- R560: LD VX, DT reads dt as it stood before the countdown of the same cycle. -/
def Obligations.ReadDelayTimer : Prop :=
  Selects 0xF0FF 0xF007 (fun w => .ldVxDt (fieldX w)) ∧
  (∀ (x : Reg) (s : State), ∃ t, exec (.ldVxDt x) s = .next t ∧
    t = { s with pc := s.pc + 2, v := t.v } ∧ t.reg x = s.dt ∧ ∀ r : Reg, r ≠ x → t.reg r = s.reg r) ∧
  ∀ (x : Reg) (s : State), s.status.isFaulted = false → s.pc.toNat < 4094 → decodeWord s.fetchWord = .ldVxDt x →
    ∃ t, cycle s = .next t ∧ t.reg x = s.dt ∧ t.dt.toNat = s.dt.toNat - 1

/-- 46_timers_and_keypad.md R561 (decision D20): with no key in the latch LD VX, K leaves pc at its own address and changes nothing;
with a key, V[X] is its code, and the latch keeps it. -/
def Obligations.WaitForKey : Prop :=
  Selects 0xF0FF 0xF00A (fun w => .ldVxK (fieldX w)) ∧
  ∀ (x : Reg) (s : State),
    (s.key = none → exec (.ldVxK x) s = .next s) ∧
    ∀ k, s.key = some k → ∃ t, exec (.ldVxK x) s = .next t ∧
    t = { s with pc := s.pc + 2, v := t.v } ∧
      (t.reg x).toNat = k.toNat ∧ ∀ r : Reg, r ≠ x → t.reg r = s.reg r

/-- R562: LD DT, VX; the countdown of the same cycle applies at once. -/
def Obligations.SetDelayTimer : Prop :=
  Selects 0xF0FF 0xF015 (fun w => .ldDtVx (fieldX w)) ∧
  (∀ (x : Reg) (s : State), exec (.ldDtVx x) s = .next { s with pc := s.pc + 2, dt := s.reg x }) ∧
  ∀ (x : Reg) (s : State), s.status.isFaulted = false → s.pc.toNat < 4094 → decodeWord s.fetchWord = .ldDtVx x →
    ∃ t, cycle s = .next t ∧ t.dt.toNat = (s.reg x).toNat - 1

/-- 46_timers_and_keypad.md R563 (decision D22): LD ST, VX emits ToneStart for a value other than 0; the countdown of the same cycle
applies at once, so a value of 1 emits ToneStart and then ToneRestart. -/
def Obligations.SetSoundTimer : Prop :=
  Selects 0xF0FF 0xF018 (fun w => .ldStVx (fieldX w)) ∧
  (∀ (x : Reg) (s : State), exec (.ldStVx x) s = .next { s with
    pc := s.pc + 2, st := s.reg x,
    events := if (s.reg x).toNat = 0 then s.events else s.events ++ [Event.toneStart] }) ∧
  ∀ (x : Reg) (s : State), s.status.isFaulted = false → s.pc.toNat < 4094 → decodeWord s.fetchWord = .ldStVx x →
    (s.reg x).toNat = 1 → ∃ t, cycle s = .next t ∧ t.st = 0 ∧ t.events = s.events ++ [Event.toneStart, Event.toneRestart]

/-! ### Unassigned sub-cases (spec/47_unassigned_encodings.md) -/

/-- R591, R592, R593, and SYS the same: each fallback row advances pc by 2 and does nothing else. -/
def Obligations.NoOpsOnlyAdvance : Prop :=
  SelectsElse 0x0000 (fun w => fieldNN w ∉ [0xE0, 0xEE]) (fun w => .sys (fieldNNN w)) ∧
  SelectsElse 0x8000 (fun w => fieldN w ∈ [0x8, 0x9, 0xA, 0xB, 0xC, 0xD, 0xF])
    (fun w => .nop8 (fieldX w) (fieldY w) (fieldN w)) ∧
  SelectsElse 0xE000 (fun w => fieldNN w ∉ [0x9E, 0xA1]) (fun w => .nope (fieldX w) (fieldNN w)) ∧
  SelectsElse 0xF000 (fun w => fieldNN w ∉ [0x07, 0x0A, 0x15, 0x18, 0x1E, 0x29, 0x33, 0x55, 0x65])
    (fun w => .nopf (fieldX w) (fieldNN w)) ∧
  ∀ (i : Instr) (s : State),
    (∃ nnn, i = .sys nnn) ∨ (∃ x y n, i = .nop8 x y n) ∨ (∃ x nn, i = .nope x nn) ∨ (∃ x nn, i = .nopf x nn) →
    exec i s = .next { s with pc := s.pc + 2 }

/-! ### Rules of the whole machine -/

/-- 10_state.md R103 (derived by the spec): an instruction leaves unchanged every general register that its row of the table does
not say it writes. -/
def Obligations.OnlyDestinationRegistersChange : Prop :=
  ∀ (i : Instr) (s t : State) (r : Reg), exec i s = .next t → i.writesReg r = false → t.reg r = s.reg r

/-- 10_state.md R103 and 60_exceptions.md R630 (derived): which instructions can change I, the stack, each timer, the event stream,
the draws taken and memory; every other instruction leaves each of them as it was. -/
def Obligations.OnlyNamedInstructionsChangeSpecialState : Prop :=
  ∀ (i : Instr) (s t : State), exec i s = .next t →
    ((∀ nnn, i ≠ .ldI nnn) → (∀ x, i ≠ .addI x ∧ i ≠ .ldF x ∧ i ≠ .ldMemVx x ∧ i ≠ .ldVxMem x) → t.i = s.i) ∧
    ((∀ nnn, i ≠ .call nnn) → i ≠ .ret → t.stack = s.stack ∧ t.sp = s.sp) ∧
    ((∀ x, i ≠ .ldDtVx x) → t.dt = s.dt) ∧
    ((∀ x, i ≠ .ldStVx x) → t.st = s.st ∧ t.events = s.events) ∧
    ((∀ x nn, i ≠ .rnd x nn) → t.draws = s.draws) ∧
    ((∀ x, i ≠ .ldB x ∧ i ≠ .ldMemVx x) → t.mem = s.mem)

/-- 10_state.md R120, R121, R122 (decisions D24, D26) and log entry 1: no instruction writes the key latch or the parameters, none
clears redraw, and none changes status but by a fault. -/
def Obligations.NoInstructionWritesHostSide : Prop :=
  ∀ (i : Instr) (s t : State), exec i s = .next t →
    t.key = s.key ∧ t.config = s.config ∧ (s.redraw = true → t.redraw = true) ∧
    (t.status = s.status ∨ t.status.isFaulted = true)

/-- R118: fb is mutated only by the clear-screen and sprite-draw instructions; the host reads all of it in any status, which changes
nothing, and of the host's requests only reset and a step, which runs an instruction, can change it. -/
def Obligations.OnlyDisplayInstructionsDraw : Prop :=
  (∀ (i : Instr) (s t : State), exec i s = .next t → i ≠ .cls → (∀ x y n, i ≠ .drw x y n) → t.fb = s.fb) ∧
  (∀ s : State, transact .readFramebuffer s = .next (s, .pixels s.fb)) ∧
  ∀ (r : Request) (s t : State) (y : Reply), transact r s = .next (t, y) → r ≠ .reset → r ≠ .step → t.fb = s.fb

/-- 10_state.md R119: no instruction but DXYN depends on a pixel, DXYN puts of the pixels only the collision value into VF, and no
store changes a pixel. The two runs compared take the same draws: that equal counts draw equal values is the model's choice (log
entry 3). -/
def Obligations.PixelsAreObservedOnlyThroughVF : Prop :=
  ∀ (i : Instr) (s t : State) (fb : Framebuffer), exec i s = .next t →
    ((∀ x y n, i ≠ .drw x y n) → ∃ fb', exec i { s with fb := fb } = .next { t with fb := fb' }) ∧
    (∀ x y n, i = .drw x y n → ∃ u, exec i { s with fb := fb } = .next u ∧
      u = { t with fb := u.fb, v := u.v } ∧ ∀ r : Reg, r ≠ 15 → u.reg r = t.reg r) ∧
    ((∀ x, i ≠ .ldB x ∧ i ≠ .ldMemVx x) ∨ t.fb = s.fb)

/-- 10_state.md R117, R120, R126 (decisions D22, D26): no instruction reads st, redraw or the event stream: whatever they hold, the
outcome is the same in everything else. The two runs compared take the same draws: that equal counts draw equal values is the
model's choice (log entry 3). -/
def Obligations.NoInstructionReadsSoundRedrawEvents : Prop :=
  ∀ (i : Instr) (s t : State) (b : Byte) (r : Bool) (es : List Event), exec i s = .next t →
    ∃ b' r' es', exec i { s with st := b, redraw := r, events := es } =
      .next { t with st := b', redraw := r', events := es' }

/-- 70_reset_and_hazards.md R714 (decision D27): the cycle of a terminal loop changes nothing but the timers and what they emit, and
the next cycle is one of the same loop; so a run that has come to its good end is, after the first such cycle, at the loop for good. -/
def Obligations.TerminalLoopStaysPut : Prop :=
  (∀ s : State, s.atTerminalLoop = true → ∃ t, cycle s = .next t ∧ t = { s with dt := t.dt, st := t.st, events := t.events } ∧
    t.dt.toNat = s.dt.toNat - 1 ∧ t.st.toNat = s.st.toNat - 1 ∧ t.atTerminalLoop = true) ∧
  ∀ s₀ t : State, EndsAt s₀ .terminalLoop t → t.atTerminalLoop = true

/-! ### Invariants -/

/-- Reset has the invariant, whatever the parameters and the latch (10_state.md R130). -/
def Obligations.ResetHasInvariant : Prop :=
  ∀ (c : Config) (k : Option Nibble) (n : Nat), State.Inv { State.reset with config := c, key := k, draws := n }

/-- Every step keeps the invariant: memory in canonical form, the stack occupied below sp, saved addresses from 2 to 4095, pc at
most 4350 (10_state.md R113, R115; 41_control_transfer.md R420; log entry 11). -/
def Obligations.StepKeepsInvariant : Prop :=
  ∀ s t : State, s.Inv → step s = .next t → t.Inv

/-- Every transaction of the host keeps the invariant (60_exceptions.md R640 to R657). -/
def Obligations.HostRequestsKeepInvariant : Prop :=
  ∀ (r : Request) (s t : State) (y : Reply), s.Inv → transact r s = .next (t, y) → t.Inv

/-- Every state that the machine and its host reach, in any interleaving (70_reset_and_hazards.md R721), has the invariant. -/
def Obligations.ReachableStatesHaveInvariant : Prop := ∀ s : State, Reachable s → s.Inv

/-- In every state with the invariant the machine takes a step to a next state, and so does a cycle: none is refused, none stops by
a named fault, and every fault of the spec is a next state (log entries 6, 7). -/
def Obligations.EveryStepHasNextState : Prop := ∀ s : State, s.Inv → (∃ t, step s = .next t) ∧ ∃ t, cycle s = .next t

/-! ### Reset, load and the host (spec/60_exceptions.md, spec/70_reset_and_hazards.md) -/

/-- R702: after reset the entry point is 512: the first cycle fetches mem[512] and mem[513]. -/
def Obligations.ResetEntersAt512 : Prop :=
  State.reset.pc.toNat = 512 ∧
  ∀ (s t : State) (y : Reply), transact .reset s = .next (t, y) → t.pc.toNat = 512 ∧ t.fetchWord = t.read8 512 ++ t.read8 513

/-- 70_reset_and_hazards.md R700, 10_state.md R130, 60_exceptions.md R645, R650 (decisions D8, D24): reset is allowed in Stopped and
Faulted, where it leaves every piece of state at its reset value and the key latch as it was; in Running and Paused it has no
move. That it keeps the parameters and the count of draws is the model's choice (log entries 1, 3). -/
def Obligations.ResetRestoresResetValues : Prop :=
  ∀ s : State,
    (s.status = .stopped ∨ s.status.isFaulted = true → ∃ t, transact .reset s = .next (t, .done) ∧
      (∀ a < 4096, t.read8 a = if h : a < 80 then s.config.fontData[a] else 0) ∧
      (∀ r : Reg, t.reg r = 0) ∧ t.i = 0 ∧ t.pc = 512 ∧ t.sp = 0 ∧ (∀ j : Fin 16, t.stack[j] = none) ∧
      t.dt = 0 ∧ t.st = 0 ∧ (∀ (p : Fin 64) (q : Fin 32), t.fb[p][q] = false) ∧ t.redraw = false ∧ t.events = [] ∧
      t.status = .stopped ∧ t.key = s.key ∧ t.config = s.config ∧ t.draws = s.draws) ∧
    (s.status = .running ∨ s.status = .paused → transact .reset s = .refused (.hostDuty "reset"))

/-- 70_reset_and_hazards.md R701, R704, 60_exceptions.md R645, R651 (decisions D24, D25): a load is allowed in Stopped and Faulted;
one of at most 3584 bytes puts them at 512 and up and changes nothing else; a longer one answers LoadError and changes nothing;
in Running and Paused it has no move. -/
def Obligations.LoadPlacesProgram : Prop :=
  ∀ (bytes : List Byte) (s : State),
    (s.status = .stopped ∨ s.status.isFaulted = true → Memory.wf s.config.fontData s.mem → bytes.length ≤ 3584 →
      ∃ t, transact (.loadProgram bytes) s = .next (t, .loaded) ∧ t = { s with mem := t.mem } ∧
        (∀ (k : Nat) (hk : k < bytes.length), t.read8 (512 + k) = bytes[k]) ∧
        ∀ a, a < 512 ∨ 512 + bytes.length ≤ a → t.read8 a = s.read8 a) ∧
    (s.status = .stopped ∨ s.status.isFaulted = true → 3584 < bytes.length →
      transact (.loadProgram bytes) s = .next (s, .loadError)) ∧
    (s.status = .running ∨ s.status = .paused →
      transact (.loadProgram bytes) s = .refused (.hostDuty "loadProgram"))

/-- 60_exceptions.md R640 to R643, R610, R652, R654 to R657 (decisions D22, D24, D26, D35): the host sets and clears the latch, reads
pixels, events and status, and observes redraw, which clears it, in any status and with no other effect; what run, pause, resume and
stop do in each status (for step: CyclesHappenOnlyWhereAllowed). That a read of the events gives the whole history and takes nothing
from it is the model's choice (log entry 10). -/
def Obligations.HostRequestsHaveTheirEffects : Prop :=
  ∀ s : State,
    (∀ k, transact (.setKey k) s = .next ({ s with key := some k }, .done)) ∧
    transact .clearKey s = .next ({ s with key := none }, .done) ∧
    transact .readFramebuffer s = .next (s, .pixels s.fb) ∧
    transact .observeRedraw s = .next ({ s with redraw := false }, .redraw s.redraw) ∧
    transact .readEvents s = .next (s, .events s.events) ∧
    transact .readStatus s = .next (s, .status s.status) ∧
    (s.status = .stopped → transact .run s = .next ({ s with status := .running }, .done)) ∧
    (s.status ≠ .stopped → transact .run s = .next (s, .done)) ∧
    (s.status = .running → transact .pause s = .next ({ s with status := .paused }, .done)) ∧
    (s.status ≠ .running → transact .pause s = .next (s, .done)) ∧
    (s.status = .paused → transact .resume s = .next ({ s with status := .running }, .done)) ∧
    (s.status ≠ .paused → transact .resume s = .next (s, .done)) ∧
    (s.status = .running ∨ s.status = .paused → transact .stop s = .next ({ s with status := .stopped }, .done)) ∧
    (s.status ≠ .running → s.status ≠ .paused → transact .stop s = .next (s, .done))
end

