-- ==== Sys2Proof/Laws/Decode.lean ====
section
/-! SUPPORT. The fields of a word, of its masked form and of an encoded word; the instruction that each row of the opcode map
selects (spec/30_encoding.md R301, R305, R306). -/

namespace Sys2Proof

variable {w m p : Word}

/-! ### Fields as numbers (R301) -/

theorem fieldFamily_toNat (w : Word) : (fieldFamily w).toNat = w.toNat / 4096 % 16 := by
  simp [fieldFamily, BitVec.extractLsb'_toNat, Nat.shiftRight_eq_div_pow]

theorem fieldX_val (w : Word) : (fieldX w).val = w.toNat / 256 % 16 := by
  have : (fieldX w).val = (w.extractLsb' 8 4).toNat := rfl
  simp [this, BitVec.extractLsb'_toNat, Nat.shiftRight_eq_div_pow]

theorem fieldY_val (w : Word) : (fieldY w).val = w.toNat / 16 % 16 := by
  have : (fieldY w).val = (w.extractLsb' 4 4).toNat := rfl
  simp [this, BitVec.extractLsb'_toNat, Nat.shiftRight_eq_div_pow]

theorem fieldN_toNat (w : Word) : (fieldN w).toNat = w.toNat % 16 := by
  simp [fieldN, BitVec.extractLsb'_toNat]

theorem fieldNN_toNat (w : Word) : (fieldNN w).toNat = w.toNat % 256 := by
  simp [fieldNN, BitVec.extractLsb'_toNat]

theorem fieldNNN_toNat (w : Word) : (fieldNNN w).toNat = w.toNat % 4096 := by
  simp [fieldNNN, BitVec.extractLsb'_toNat]

/-! ### Fields of an encoded word -/

theorem encodeXNN_toNat (f : Nibble) (x : Reg) (nn : Byte) :
    (encodeXNN f x nn).toNat = f.toNat * 4096 + x.val * 256 + nn.toNat := by
  have hx : (regField x).toNat = x.val := rfl
  have := f.isLt; have := x.isLt; have := nn.isLt
  simp only [encodeXNN, BitVec.toNat_append]
  rw [← Nat.shiftLeft_add_eq_or_of_lt (regField x).isLt, ← Nat.shiftLeft_add_eq_or_of_lt nn.isLt, hx,
    Nat.shiftLeft_eq, Nat.shiftLeft_eq]
  omega

theorem encodeXYN_toNat (f : Nibble) (x y : Reg) (n : Nibble) :
    (encodeXYN f x y n).toNat = f.toNat * 4096 + x.val * 256 + y.val * 16 + n.toNat := by
  have hx : (regField x).toNat = x.val := rfl
  have hy : (regField y).toNat = y.val := rfl
  simp only [encodeXYN, BitVec.toNat_append]
  rw [← Nat.shiftLeft_add_eq_or_of_lt (regField x).isLt, ← Nat.shiftLeft_add_eq_or_of_lt (regField y).isLt,
    ← Nat.shiftLeft_add_eq_or_of_lt n.isLt, hx, hy, Nat.shiftLeft_eq, Nat.shiftLeft_eq, Nat.shiftLeft_eq]
  omega

theorem encodeNNN_toNat (f : Nibble) (nnn : Addr12) : (encodeNNN f nnn).toNat = f.toNat * 4096 + nnn.toNat := by
  simp only [encodeNNN, BitVec.toNat_append]
  rw [← Nat.shiftLeft_add_eq_or_of_lt nnn.isLt, Nat.shiftLeft_eq]

variable (f : Nibble) (x y : Reg) (n : Nibble) (nn : Byte) (nnn : Addr12)

@[simp] theorem fieldFamily_encodeXNN : fieldFamily (encodeXNN f x nn) = f := by
  apply BitVec.eq_of_toNat_eq; rw [fieldFamily_toNat, encodeXNN_toNat]; omega
@[simp] theorem fieldX_encodeXNN : fieldX (encodeXNN f x nn) = x := by
  apply Fin.ext; rw [fieldX_val, encodeXNN_toNat]; omega
@[simp] theorem fieldNN_encodeXNN : fieldNN (encodeXNN f x nn) = nn := by
  apply BitVec.eq_of_toNat_eq; rw [fieldNN_toNat, encodeXNN_toNat]; omega
@[simp] theorem fieldFamily_encodeXYN : fieldFamily (encodeXYN f x y n) = f := by
  apply BitVec.eq_of_toNat_eq; rw [fieldFamily_toNat, encodeXYN_toNat]; omega
@[simp] theorem fieldX_encodeXYN : fieldX (encodeXYN f x y n) = x := by
  apply Fin.ext; rw [fieldX_val, encodeXYN_toNat]; omega
@[simp] theorem fieldY_encodeXYN : fieldY (encodeXYN f x y n) = y := by
  apply Fin.ext; rw [fieldY_val, encodeXYN_toNat]; omega
@[simp] theorem fieldN_encodeXYN : fieldN (encodeXYN f x y n) = n := by
  apply BitVec.eq_of_toNat_eq; rw [fieldN_toNat, encodeXYN_toNat]; omega
@[simp] theorem fieldFamily_encodeNNN : fieldFamily (encodeNNN f nnn) = f := by
  apply BitVec.eq_of_toNat_eq; rw [fieldFamily_toNat, encodeNNN_toNat]; omega
@[simp] theorem fieldNNN_encodeNNN : fieldNNN (encodeNNN f nnn) = nnn := by
  apply BitVec.eq_of_toNat_eq; rw [fieldNNN_toNat, encodeNNN_toNat]; omega
@[simp] theorem fieldNN_encodeNNN : fieldNN (encodeNNN f nnn) = nnn.setWidth 8 := by
  apply BitVec.eq_of_toNat_eq; rw [fieldNN_toNat, encodeNNN_toNat, BitVec.toNat_setWidth]; omega

/-- The word that memory holds as its two bytes. -/
@[simp] theorem wordOfBytes_split (w : Word) : wordOfBytes (highByte w) (lowByte w) = w := by
  apply BitVec.eq_of_toNat_eq
  simp only [wordOfBytes, highByte, lowByte, BitVec.toNat_append]
  rw [← Nat.shiftLeft_add_eq_or_of_lt (BitVec.isLt _), Nat.shiftLeft_eq]
  simp only [BitVec.extractLsb'_toNat, Nat.shiftRight_eq_div_pow]
  omega

/-! ### Fields of a masked word -/

theorem fieldFamily_of_and (h : w &&& m = p) (hm : fieldFamily m = 0xF) : fieldFamily w = fieldFamily p := by
  have : fieldFamily p = fieldFamily w &&& fieldFamily m := by rw [← h]; exact BitVec.extractLsb'_and
  rw [this, hm]; exact (BitVec.and_allOnes (x := fieldFamily w)).symm

theorem fieldN_of_and (h : w &&& m = p) (hm : fieldN m = 0xF) : fieldN w = fieldN p := by
  have : fieldN p = fieldN w &&& fieldN m := by rw [← h]; exact BitVec.extractLsb'_and
  rw [this, hm]; exact (BitVec.and_allOnes (x := fieldN w)).symm

theorem fieldNN_of_and (h : w &&& m = p) (hm : fieldNN m = 0xFF) : fieldNN w = fieldNN p := by
  have : fieldNN p = fieldNN w &&& fieldNN m := by rw [← h]; exact BitVec.extractLsb'_and
  rw [this, hm]; exact (BitVec.and_allOnes (x := fieldNN w)).symm

/-- A word is its four nibbles. -/
theorem word_ext {v w : Word} (hf : fieldFamily v = fieldFamily w) (hx : fieldX v = fieldX w) (hy : fieldY v = fieldY w)
    (hn : fieldN v = fieldN w) : v = w := by
  have hf := congrArg BitVec.toNat hf
  have hx := congrArg Fin.val hx
  have hy := congrArg Fin.val hy
  have hn := congrArg BitVec.toNat hn
  rw [fieldFamily_toNat, fieldFamily_toNat] at hf
  rw [fieldX_val, fieldX_val] at hx
  rw [fieldY_val, fieldY_val] at hy
  rw [fieldN_toNat, fieldN_toNat] at hn
  have := v.isLt
  have := w.isLt
  exact BitVec.eq_of_toNat_eq (by omega)

theorem fieldFamily_and (v w : Word) : fieldFamily (v &&& w) = fieldFamily v &&& fieldFamily w := BitVec.extractLsb'_and

theorem fieldX_and (v w : Word) : fieldX (v &&& w) = BitVec.toFin (regField (fieldX v) &&& regField (fieldX w)) :=
  congrArg BitVec.toFin (BitVec.extractLsb'_and (x := v) (y := w) (start := 8) (len := 4))

theorem fieldY_and (v w : Word) : fieldY (v &&& w) = BitVec.toFin (regField (fieldY v) &&& regField (fieldY w)) :=
  congrArg BitVec.toFin (BitVec.extractLsb'_and (x := v) (y := w) (start := 4) (len := 4))

theorem fieldN_and (v w : Word) : fieldN (v &&& w) = fieldN v &&& fieldN w := BitVec.extractLsb'_and

theorem fieldNN_and (v w : Word) : fieldNN (v &&& w) = fieldNN v &&& fieldNN w := BitVec.extractLsb'_and

/-- The words that the three masks of R306 leave. -/
theorem and_F000 (w : Word) : w &&& 0xF000 = encodeXYN (fieldFamily w) 0 0 0 := by
  apply word_ext
  · rw [fieldFamily_and, fieldFamily_encodeXYN]; exact BitVec.and_allOnes (x := fieldFamily w)
  · rw [fieldX_and, fieldX_encodeXYN]; exact congrArg BitVec.toFin (BitVec.and_zero (x := regField (fieldX w)))
  · rw [fieldY_and, fieldY_encodeXYN]; exact congrArg BitVec.toFin (BitVec.and_zero (x := regField (fieldY w)))
  · rw [fieldN_and, fieldN_encodeXYN]; exact BitVec.and_zero (x := fieldN w)

theorem and_F00F (w : Word) : w &&& 0xF00F = encodeXYN (fieldFamily w) 0 0 (fieldN w) := by
  apply word_ext
  · rw [fieldFamily_and, fieldFamily_encodeXYN]; exact BitVec.and_allOnes (x := fieldFamily w)
  · rw [fieldX_and, fieldX_encodeXYN]; exact congrArg BitVec.toFin (BitVec.and_zero (x := regField (fieldX w)))
  · rw [fieldY_and, fieldY_encodeXYN]; exact congrArg BitVec.toFin (BitVec.and_zero (x := regField (fieldY w)))
  · rw [fieldN_and, fieldN_encodeXYN]; exact BitVec.and_allOnes (x := fieldN w)

theorem and_F0FF (w : Word) : w &&& 0xF0FF = encodeXYN (fieldFamily w) 0 (fieldY w) (fieldN w) := by
  apply word_ext
  · rw [fieldFamily_and, fieldFamily_encodeXYN]; exact BitVec.and_allOnes (x := fieldFamily w)
  · rw [fieldX_and, fieldX_encodeXYN]; exact congrArg BitVec.toFin (BitVec.and_zero (x := regField (fieldX w)))
  · rw [fieldY_and, fieldY_encodeXYN]; exact congrArg BitVec.toFin (BitVec.and_allOnes (x := regField (fieldY w)))
  · rw [fieldN_and, fieldN_encodeXYN]; exact BitVec.and_allOnes (x := fieldN w)

/-- The fields X and N of a word in format XNN. -/
theorem encodeXNN_eq_encodeXYN (f : Nibble) (x : Reg) (nn : Byte) :
    encodeXNN f x nn = encodeXYN f x (nn.extractLsb' 4 4).toFin (nn.extractLsb' 0 4) := by
  apply BitVec.eq_of_toNat_eq
  have : (nn.extractLsb' 4 4).toFin.val = (nn.extractLsb' 4 4).toNat := rfl
  rw [encodeXNN_toNat, encodeXYN_toNat, this]
  simp only [BitVec.extractLsb'_toNat, Nat.shiftRight_eq_div_pow]
  have := nn.isLt
  omega

/-! ### The rows of the opcode map (R306) -/

theorem decodeWord_cls (h : w &&& 0xF0FF = 0x00E0) : decodeWord w = .cls := by
  have hf : fieldFamily w = 0x0 := fieldFamily_of_and h rfl
  have hs : fieldNN w = 0xE0 := fieldNN_of_and h rfl
  simp [decodeWord, decodeFamily0, hf, hs]

theorem decodeWord_ret (h : w &&& 0xF0FF = 0x00EE) : decodeWord w = .ret := by
  have hf : fieldFamily w = 0x0 := fieldFamily_of_and h rfl
  have hs : fieldNN w = 0xEE := fieldNN_of_and h rfl
  simp [decodeWord, decodeFamily0, hf, hs]

theorem decodeWord_jp (h : w &&& 0xF000 = 0x1000) : decodeWord w = .jp (fieldNNN w) := by
  have hf : fieldFamily w = 0x1 := fieldFamily_of_and h rfl
  simp [decodeWord, hf]

theorem decodeWord_call (h : w &&& 0xF000 = 0x2000) : decodeWord w = .call (fieldNNN w) := by
  have hf : fieldFamily w = 0x2 := fieldFamily_of_and h rfl
  simp [decodeWord, hf]

theorem decodeWord_seImm (h : w &&& 0xF000 = 0x3000) : decodeWord w = .seImm (fieldX w) (fieldNN w) := by
  have hf : fieldFamily w = 0x3 := fieldFamily_of_and h rfl
  simp [decodeWord, hf]

theorem decodeWord_sneImm (h : w &&& 0xF000 = 0x4000) : decodeWord w = .sneImm (fieldX w) (fieldNN w) := by
  have hf : fieldFamily w = 0x4 := fieldFamily_of_and h rfl
  simp [decodeWord, hf]

theorem decodeWord_seReg (h : w &&& 0xF000 = 0x5000) : decodeWord w = .seReg (fieldX w) (fieldY w) := by
  have hf : fieldFamily w = 0x5 := fieldFamily_of_and h rfl
  simp [decodeWord, hf]

theorem decodeWord_ldImm (h : w &&& 0xF000 = 0x6000) : decodeWord w = .ldImm (fieldX w) (fieldNN w) := by
  have hf : fieldFamily w = 0x6 := fieldFamily_of_and h rfl
  simp [decodeWord, hf]

theorem decodeWord_addImm (h : w &&& 0xF000 = 0x7000) : decodeWord w = .addImm (fieldX w) (fieldNN w) := by
  have hf : fieldFamily w = 0x7 := fieldFamily_of_and h rfl
  simp [decodeWord, hf]

theorem decodeWord_ldReg (h : w &&& 0xF00F = 0x8000) : decodeWord w = .ldReg (fieldX w) (fieldY w) := by
  have hf : fieldFamily w = 0x8 := fieldFamily_of_and h rfl
  have hs : fieldN w = 0x0 := fieldN_of_and h rfl
  simp [decodeWord, decodeFamily8, hf, hs]

theorem decodeWord_orReg (h : w &&& 0xF00F = 0x8001) : decodeWord w = .orReg (fieldX w) (fieldY w) := by
  have hf : fieldFamily w = 0x8 := fieldFamily_of_and h rfl
  have hs : fieldN w = 0x1 := fieldN_of_and h rfl
  simp [decodeWord, decodeFamily8, hf, hs]

theorem decodeWord_andReg (h : w &&& 0xF00F = 0x8002) : decodeWord w = .andReg (fieldX w) (fieldY w) := by
  have hf : fieldFamily w = 0x8 := fieldFamily_of_and h rfl
  have hs : fieldN w = 0x2 := fieldN_of_and h rfl
  simp [decodeWord, decodeFamily8, hf, hs]

theorem decodeWord_xorReg (h : w &&& 0xF00F = 0x8003) : decodeWord w = .xorReg (fieldX w) (fieldY w) := by
  have hf : fieldFamily w = 0x8 := fieldFamily_of_and h rfl
  have hs : fieldN w = 0x3 := fieldN_of_and h rfl
  simp [decodeWord, decodeFamily8, hf, hs]

theorem decodeWord_addReg (h : w &&& 0xF00F = 0x8004) : decodeWord w = .addReg (fieldX w) (fieldY w) := by
  have hf : fieldFamily w = 0x8 := fieldFamily_of_and h rfl
  have hs : fieldN w = 0x4 := fieldN_of_and h rfl
  simp [decodeWord, decodeFamily8, hf, hs]

theorem decodeWord_subReg (h : w &&& 0xF00F = 0x8005) : decodeWord w = .subReg (fieldX w) (fieldY w) := by
  have hf : fieldFamily w = 0x8 := fieldFamily_of_and h rfl
  have hs : fieldN w = 0x5 := fieldN_of_and h rfl
  simp [decodeWord, decodeFamily8, hf, hs]

theorem decodeWord_shr (h : w &&& 0xF00F = 0x8006) : decodeWord w = .shr (fieldX w) (fieldY w) := by
  have hf : fieldFamily w = 0x8 := fieldFamily_of_and h rfl
  have hs : fieldN w = 0x6 := fieldN_of_and h rfl
  simp [decodeWord, decodeFamily8, hf, hs]

theorem decodeWord_subn (h : w &&& 0xF00F = 0x8007) : decodeWord w = .subn (fieldX w) (fieldY w) := by
  have hf : fieldFamily w = 0x8 := fieldFamily_of_and h rfl
  have hs : fieldN w = 0x7 := fieldN_of_and h rfl
  simp [decodeWord, decodeFamily8, hf, hs]

theorem decodeWord_shl (h : w &&& 0xF00F = 0x800E) : decodeWord w = .shl (fieldX w) (fieldY w) := by
  have hf : fieldFamily w = 0x8 := fieldFamily_of_and h rfl
  have hs : fieldN w = 0xE := fieldN_of_and h rfl
  simp [decodeWord, decodeFamily8, hf, hs]

theorem decodeWord_sneReg (h : w &&& 0xF000 = 0x9000) : decodeWord w = .sneReg (fieldX w) (fieldY w) := by
  have hf : fieldFamily w = 0x9 := fieldFamily_of_and h rfl
  simp [decodeWord, hf]

theorem decodeWord_ldI (h : w &&& 0xF000 = 0xA000) : decodeWord w = .ldI (fieldNNN w) := by
  have hf : fieldFamily w = 0xA := fieldFamily_of_and h rfl
  simp [decodeWord, hf]

theorem decodeWord_jpV0 (h : w &&& 0xF000 = 0xB000) : decodeWord w = .jpV0 (fieldNNN w) := by
  have hf : fieldFamily w = 0xB := fieldFamily_of_and h rfl
  simp [decodeWord, hf]

theorem decodeWord_rnd (h : w &&& 0xF000 = 0xC000) : decodeWord w = .rnd (fieldX w) (fieldNN w) := by
  have hf : fieldFamily w = 0xC := fieldFamily_of_and h rfl
  simp [decodeWord, hf]

theorem decodeWord_drw (h : w &&& 0xF000 = 0xD000) : decodeWord w = .drw (fieldX w) (fieldY w) (fieldN w) := by
  have hf : fieldFamily w = 0xD := fieldFamily_of_and h rfl
  simp [decodeWord, hf]

theorem decodeWord_skp (h : w &&& 0xF0FF = 0xE09E) : decodeWord w = .skp (fieldX w) := by
  have hf : fieldFamily w = 0xE := fieldFamily_of_and h rfl
  have hs : fieldNN w = 0x9E := fieldNN_of_and h rfl
  simp [decodeWord, decodeFamilyE, hf, hs]

theorem decodeWord_sknp (h : w &&& 0xF0FF = 0xE0A1) : decodeWord w = .sknp (fieldX w) := by
  have hf : fieldFamily w = 0xE := fieldFamily_of_and h rfl
  have hs : fieldNN w = 0xA1 := fieldNN_of_and h rfl
  simp [decodeWord, decodeFamilyE, hf, hs]

theorem decodeWord_ldVxDt (h : w &&& 0xF0FF = 0xF007) : decodeWord w = .ldVxDt (fieldX w) := by
  have hf : fieldFamily w = 0xF := fieldFamily_of_and h rfl
  have hs : fieldNN w = 0x07 := fieldNN_of_and h rfl
  simp [decodeWord, decodeFamilyF, hf, hs]

theorem decodeWord_ldVxK (h : w &&& 0xF0FF = 0xF00A) : decodeWord w = .ldVxK (fieldX w) := by
  have hf : fieldFamily w = 0xF := fieldFamily_of_and h rfl
  have hs : fieldNN w = 0x0A := fieldNN_of_and h rfl
  simp [decodeWord, decodeFamilyF, hf, hs]

theorem decodeWord_ldDtVx (h : w &&& 0xF0FF = 0xF015) : decodeWord w = .ldDtVx (fieldX w) := by
  have hf : fieldFamily w = 0xF := fieldFamily_of_and h rfl
  have hs : fieldNN w = 0x15 := fieldNN_of_and h rfl
  simp [decodeWord, decodeFamilyF, hf, hs]

theorem decodeWord_ldStVx (h : w &&& 0xF0FF = 0xF018) : decodeWord w = .ldStVx (fieldX w) := by
  have hf : fieldFamily w = 0xF := fieldFamily_of_and h rfl
  have hs : fieldNN w = 0x18 := fieldNN_of_and h rfl
  simp [decodeWord, decodeFamilyF, hf, hs]

theorem decodeWord_addI (h : w &&& 0xF0FF = 0xF01E) : decodeWord w = .addI (fieldX w) := by
  have hf : fieldFamily w = 0xF := fieldFamily_of_and h rfl
  have hs : fieldNN w = 0x1E := fieldNN_of_and h rfl
  simp [decodeWord, decodeFamilyF, hf, hs]

theorem decodeWord_ldF (h : w &&& 0xF0FF = 0xF029) : decodeWord w = .ldF (fieldX w) := by
  have hf : fieldFamily w = 0xF := fieldFamily_of_and h rfl
  have hs : fieldNN w = 0x29 := fieldNN_of_and h rfl
  simp [decodeWord, decodeFamilyF, hf, hs]

theorem decodeWord_ldB (h : w &&& 0xF0FF = 0xF033) : decodeWord w = .ldB (fieldX w) := by
  have hf : fieldFamily w = 0xF := fieldFamily_of_and h rfl
  have hs : fieldNN w = 0x33 := fieldNN_of_and h rfl
  simp [decodeWord, decodeFamilyF, hf, hs]

theorem decodeWord_ldMemVx (h : w &&& 0xF0FF = 0xF055) : decodeWord w = .ldMemVx (fieldX w) := by
  have hf : fieldFamily w = 0xF := fieldFamily_of_and h rfl
  have hs : fieldNN w = 0x55 := fieldNN_of_and h rfl
  simp [decodeWord, decodeFamilyF, hf, hs]

theorem decodeWord_ldVxMem (h : w &&& 0xF0FF = 0xF065) : decodeWord w = .ldVxMem (fieldX w) := by
  have hf : fieldFamily w = 0xF := fieldFamily_of_and h rfl
  have hs : fieldNN w = 0x65 := fieldNN_of_and h rfl
  simp [decodeWord, decodeFamilyF, hf, hs]

theorem decodeWord_sys (h : w &&& 0xF000 = 0x0000) (hs : fieldNN w ∉ functions0) :
    decodeWord w = .sys (fieldNNN w) := by
  have hf : fieldFamily w = 0x0 := fieldFamily_of_and h rfl
  have he : decodeWord w = decodeFamily0 w := by simp [decodeWord, hf]
  rw [he, decodeFamily0]
  split <;> first | rfl | (rename_i e; exact absurd (by rw [e]; decide) hs)

theorem decodeWord_nop8 (h : w &&& 0xF000 = 0x8000) (hs : fieldN w ∉ functions8) :
    decodeWord w = .nop8 (fieldX w) (fieldY w) (fieldN w) := by
  have hf : fieldFamily w = 0x8 := fieldFamily_of_and h rfl
  have he : decodeWord w = decodeFamily8 w := by simp [decodeWord, hf]
  rw [he, decodeFamily8]
  split <;> first | rfl | (rename_i e; exact absurd (by rw [e]; decide) hs)

theorem decodeWord_nope (h : w &&& 0xF000 = 0xE000) (hs : fieldNN w ∉ functionsE) :
    decodeWord w = .nope (fieldX w) (fieldNN w) := by
  have hf : fieldFamily w = 0xE := fieldFamily_of_and h rfl
  have he : decodeWord w = decodeFamilyE w := by simp [decodeWord, hf]
  rw [he, decodeFamilyE]
  split <;> first | rfl | (rename_i e; exact absurd (by rw [e]; decide) hs)

theorem decodeWord_nopf (h : w &&& 0xF000 = 0xF000) (hs : fieldNN w ∉ functionsF) :
    decodeWord w = .nopf (fieldX w) (fieldNN w) := by
  have hf : fieldFamily w = 0xF := fieldFamily_of_and h rfl
  have he : decodeWord w = decodeFamilyF w := by simp [decodeWord, hf]
  rw [he, decodeFamilyF]
  split <;> first | rfl | (rename_i e; exact absurd (by rw [e]; decide) hs)

end Sys2Proof
end

