-- ==== Sys2Proof/Laws/Memory.lean ====
section
/-! SUPPORT. What the memory operations do: a read after a write gives what was written there and what was there before elsewhere,
and every write keeps the canonical form (spec/20_memory.md R207; log entry 11). -/

namespace Sys2Proof.Machine

/-! ### Cells -/

theorem Memory.lookup_insert (m : Memory) (a : Nat) (b : Byte) (p : Nat) :
    Memory.lookup (Memory.insert m a b) p = if p = a then some b else Memory.lookup m p := by
  induction m with
  | nil => simp [Memory.insert, Memory.lookup, eq_comm]
  | cons c m ih =>
    obtain ⟨k, c⟩ := c
    simp only [Memory.insert]
    split
    · simp [Memory.lookup, eq_comm]
    · split
      · rename_i h; subst h; simp only [Memory.lookup]; split <;> simp_all [eq_comm]
      · simp only [Memory.lookup, ih]; split <;> split <;> simp_all

theorem Memory.lookup_eq_none {m : Memory} {a : Nat} (h : ∀ c ∈ m, a < c.1) : Memory.lookup m a = none := by
  induction m with
  | nil => rfl
  | cons c m ih =>
    have := h c (by simp)
    simp only [Memory.lookup]
    rw [if_neg (by omega)]
    exact ih fun d hd => h d (by simp [hd])

theorem Memory.lookup_erase {m : Memory} (hm : m.Pairwise fun c d => c.1 < d.1) (a p : Nat) :
    Memory.lookup (Memory.erase m a) p = if p = a then none else Memory.lookup m p := by
  induction m with
  | nil => simp [Memory.erase, Memory.lookup]
  | cons c m ih =>
    obtain ⟨k, c⟩ := c
    obtain ⟨hk, hm⟩ := List.pairwise_cons.mp hm
    simp only [Memory.erase]
    split
    · rename_i h; subst h
      simp only [Memory.lookup]
      split
      · rename_i h; subst h; exact Memory.lookup_eq_none fun d hd => hk d hd
      · rw [if_neg (by omega)]
    · simp only [Memory.lookup, ih hm]; split <;> split <;> simp_all

theorem Memory.mem_insert {m : Memory} {a : Nat} {b : Byte} {c : Host.Cell} (h : c ∈ Memory.insert m a b) :
    c = (a, b) ∨ c ∈ m := by
  induction m with
  | nil => simpa [Memory.insert] using h
  | cons d m ih =>
    obtain ⟨k, d⟩ := d
    simp only [Memory.insert] at h
    split at h
    · simpa using h
    · split at h
      · rcases List.mem_cons.mp h with h | h
        · exact .inl h
        · exact .inr (by simp [h])
      · rcases List.mem_cons.mp h with h | h
        · exact .inr (by simp [h])
        · rcases ih h with h | h
          · exact .inl h
          · exact .inr (by simp [h])

theorem Memory.mem_erase {m : Memory} {a : Nat} {c : Host.Cell} (h : c ∈ Memory.erase m a) : c ∈ m := by
  induction m with
  | nil => simp [Memory.erase] at h
  | cons d m ih =>
    obtain ⟨k, d⟩ := d
    simp only [Memory.erase] at h
    split at h
    · exact List.mem_cons_of_mem _ h
    · rcases List.mem_cons.mp h with h | h
      · simp [h]
      · exact List.mem_cons_of_mem _ (ih h)

theorem Memory.insert_sorted {m : Memory} (hm : m.Pairwise fun c d => c.1 < d.1) (a : Nat) (b : Byte) :
    (Memory.insert m a b).Pairwise fun c d => c.1 < d.1 := by
  induction m with
  | nil => simp [Memory.insert]
  | cons c m ih =>
    obtain ⟨k, c⟩ := c
    obtain ⟨hk, hm'⟩ := List.pairwise_cons.mp hm
    simp only [Memory.insert]
    split
    · rename_i h
      refine List.pairwise_cons.mpr ⟨fun d hd => ?_, hm⟩
      rcases List.mem_cons.mp hd with rfl | hd
      · exact h
      · exact Nat.lt_trans h (hk d hd)
    · split
      · rename_i h; subst h; exact List.pairwise_cons.mpr ⟨hk, hm'⟩
      · refine List.pairwise_cons.mpr ⟨fun d hd => ?_, ih hm'⟩
        rcases Memory.mem_insert hd with rfl | hd
        · simp only; omega
        · exact hk d hd

theorem Memory.erase_sorted {m : Memory} (hm : m.Pairwise fun c d => c.1 < d.1) (a : Nat) :
    (Memory.erase m a).Pairwise fun c d => c.1 < d.1 := by
  induction m with
  | nil => simp [Memory.erase]
  | cons c m ih =>
    obtain ⟨k, c⟩ := c
    obtain ⟨hk, hm'⟩ := List.pairwise_cons.mp hm
    simp only [Memory.erase]
    split
    · exact hm'
    · exact List.pairwise_cons.mpr ⟨fun d hd => hk d (Memory.mem_erase hd), ih hm'⟩

/-! ### One byte -/

/-- A read after a write. The cells need only be in order. -/
theorem Memory.read_write (font : FontData) {m : Memory} (hm : m.Pairwise fun c d => c.1 < d.1) (a : Nat) (b : Byte) (p : Nat) :
    Memory.read font (Memory.write font m a b) p = if p = a then b else Memory.read font m p := by
  unfold Memory.read Memory.write
  split
  · rename_i h
    rw [Memory.lookup_erase hm]
    split
    · rename_i hp; subst hp; simp [h]
    · rfl
  · rw [Memory.lookup_insert]; split <;> simp

/-- Every write inside the address space keeps the canonical form. -/
theorem Memory.write_wf {font : FontData} {m : Memory} (hm : Memory.wf font m) {a : Nat} (ha : a < memSize) (b : Byte) :
    Memory.wf font (Memory.write font m a b) := by
  unfold Memory.write
  split
  · exact ⟨Memory.erase_sorted hm.1 a, fun c hc => hm.2 c (Memory.mem_erase hc)⟩
  · rename_i h
    refine ⟨Memory.insert_sorted hm.1 a b, fun c hc => ?_⟩
    rcases Memory.mem_insert hc with rfl | hc
    · exact ⟨ha, h⟩
    · exact hm.2 c hc

/-- The memory of the reset state is in canonical form, whatever the font. -/
theorem Memory.wf_nil (font : FontData) : Memory.wf font [] := ⟨List.Pairwise.nil, by simp⟩

/-! ### States -/

variable {s : State}

/-- The addresses of the memory's cells rise strictly: all that reading after writing needs. -/
abbrev State.memSorted (s : State) : Prop := s.mem.Pairwise fun c d => c.1 < d.1

theorem State.memSorted_of_wf (h : Memory.wf s.config.fontData s.mem) : s.memSorted := h.1

theorem State.write8_memSorted (hm : s.memSorted) (a : Nat) (b : Byte) : (s.write8 a b).memSorted := by
  simp only [State.memSorted, State.write8, State.setMem_mem, Memory.write]
  split
  · exact Memory.erase_sorted hm a
  · exact Memory.insert_sorted hm a b

theorem State.read8_write8 (hm : s.memSorted) (a : Nat) (b : Byte) (p : Nat) :
    (s.write8 a b).read8 p = if p = a then b else s.read8 p :=
  Memory.read_write s.config.fontData hm a b p

/-- Writing bytes changes memory and nothing else. -/
theorem State.writeBytes_eq_setMem (s : State) (a : Nat) (bs : List Byte) :
    ∃ m, s.writeBytes a bs = s.setMem m ∧ (s.writeBytes a bs).mem = m := by
  induction bs generalizing s a with
  | nil => exact ⟨s.mem, rfl, rfl⟩
  | cons b bs ih =>
    obtain ⟨m, h, -⟩ := ih (s.write8 a b) (a + 1)
    refine ⟨m, ?_, ?_⟩ <;> simp only [State.writeBytes, h] <;> rfl

theorem State.writeBytes_setMem (s : State) (a : Nat) (bs : List Byte) :
    s.writeBytes a bs = s.setMem (s.writeBytes a bs).mem := by
  obtain ⟨m, h, h'⟩ := State.writeBytes_eq_setMem s a bs
  rw [h', h]

theorem State.writeBytes_memSorted (hm : s.memSorted) (a : Nat) (bs : List Byte) : (s.writeBytes a bs).memSorted := by
  induction bs generalizing s a with
  | nil => exact hm
  | cons b bs ih => exact ih (State.write8_memSorted hm a b) (a + 1)

/-- A read after bytes have been written: the byte written there, or what was there before. -/
theorem State.read8_writeBytes (hm : s.memSorted) (a : Nat) (bs : List Byte) (p : Nat) :
    (s.writeBytes a bs).read8 p = if a ≤ p then (bs[p - a]?).getD (s.read8 p) else s.read8 p := by
  induction bs generalizing s a with
  | nil => simp [State.writeBytes]
  | cons b bs ih =>
    rw [State.writeBytes, ih (State.write8_memSorted hm a b), State.read8_write8 hm]
    by_cases h1 : p = a
    · subst h1; simp
    · by_cases h2 : a ≤ p
      · have h3 : a + 1 ≤ p := by omega
        have h4 : p - a = (p - (a + 1)) + 1 := by omega
        simp [h1, h2, h3, h4]
      · simp [h1, h2, show ¬ a + 1 ≤ p by omega]

/-- Bytes written inside the address space keep the canonical form. -/
theorem State.writeBytes_wf (hm : Memory.wf s.config.fontData s.mem) {a : Nat} {bs : List Byte} (hb : a + bs.length ≤ memSize) :
    Memory.wf s.config.fontData (s.writeBytes a bs).mem := by
  induction bs generalizing s a with
  | nil => exact hm
  | cons b bs ih =>
    have hb' : a + bs.length + 1 ≤ memSize := by simpa [Nat.add_assoc] using hb
    exact ih (s := s.write8 a b) (Memory.write_wf hm (by omega) b) (by omega)

@[simp] theorem State.length_readBytes (s : State) (a n : Nat) : (s.readBytes a n).length = n := by simp [State.readBytes]

theorem State.getElem?_readBytes (s : State) (a n k : Nat) :
    (s.readBytes a n)[k]? = if k < n then some (s.read8 (a + k)) else none := by
  unfold State.readBytes
  split
  · rename_i h; simp [h]
  · rename_i h; simp [Nat.le_of_not_lt h]

/-- R206: the range check, as arithmetic. -/
theorem State.accessFits_iff (s : State) (n : Nat) : s.accessFits n = true ↔ n = 0 ∨ s.i.toNat + n ≤ 4096 := by
  unfold State.accessFits
  rw [Bool.or_eq_true, decide_eq_true_eq, decide_eq_true_eq]
  rfl

end Sys2Proof.Machine
end

