-- ==== Sys2Proof/Laws/Display.lean ====
section
/-! SUPPORT. What the pixel writer does, pixel by pixel (spec/45_display.md R531 to R534). -/

namespace Sys2Proof.Machine

/-- Two framebuffers with the same pixels are the same. -/
theorem Framebuffer.ext_pixel {f g : Framebuffer} (h : ∀ x y, x < 64 → y < 32 → f.pixel x y = g.pixel x y) : f = g := by
  apply Vector.ext
  intro x hx
  apply Vector.ext
  intro y hy
  simpa [Framebuffer.pixel, hx, hy] using h x y hx hy

@[simp] theorem Framebuffer.pixel_blank (x y : Nat) : Framebuffer.blank.pixel x y = false := by
  unfold Framebuffer.pixel Framebuffer.blank
  split <;> simp

theorem Framebuffer.pixel_outside {f : Framebuffer} {x y : Nat} (h : ¬ (x < 64 ∧ y < 32)) : f.pixel x y = false := by
  simp [Framebuffer.pixel, h]

/-- A flip changes one pixel, and only inside the framebuffer. -/
theorem Framebuffer.pixel_flip (f : Framebuffer) (x y p q : Nat) :
    (f.flip x y).pixel p q = if p = x ∧ q = y ∧ x < 64 ∧ y < 32 then !f.pixel p q else f.pixel p q := by
  unfold Framebuffer.flip
  by_cases hxy : x < 64 ∧ y < 32
  · obtain ⟨hx, hy⟩ := hxy
    simp only [hx, hy, and_self, and_true, dif_pos]
    by_cases hpq : p < 64 ∧ q < 32
    · obtain ⟨hp, hq⟩ := hpq
      simp only [Framebuffer.pixel, hp, hq, and_self, dif_pos]
      by_cases h1 : p = x
      · subst h1
        by_cases h2 : q = y
        · subst h2; simp
        · simp [h2, Ne.symm h2]
      · simp [h1, Ne.symm h1]
    · rw [Framebuffer.pixel_outside hpq, Framebuffer.pixel_outside hpq]
      rw [if_neg]
      rintro ⟨rfl, rfl⟩
      exact hpq ⟨hx, hy⟩
  · simp only [dif_neg hxy]
    rw [if_neg]
    rintro ⟨-, -, h⟩
    exact hxy h

/-- Whether a row's byte has a set bit over column `p` (R532): column x0 + k is bit 7 - k. -/
def rowBit (x0 : Nat) (b : Byte) (p : Nat) : Bool := decide (x0 ≤ p ∧ p < x0 + 8) && b.getLsbD (7 - (p - x0))

/-- One column drawn: the pixel under a set bit is flipped, and a collision is a lit pixel flipped. -/
theorem drawPixel_spec (c : Canvas) (x y : Nat) (bit : Bool) :
    (∀ p q, (drawPixel c x y bit).1.pixel p q =
      (c.1.pixel p q ^^ decide (p = x ∧ q = y ∧ bit = true ∧ p < 64 ∧ q < 32))) ∧
    (drawPixel c x y bit).2 = (c.2 || (bit && c.1.pixel x y)) := by
  unfold drawPixel
  by_cases h : (bit && decide (x < 64) && decide (y < 32)) = true
  · rw [if_pos h]
    simp only [Bool.and_eq_true, decide_eq_true_eq] at h
    obtain ⟨⟨hb, hx⟩, hy⟩ := h
    refine ⟨fun p q => ?_, by simp [hb]⟩
    rw [Framebuffer.pixel_flip]
    by_cases hpq : p = x ∧ q = y
    · obtain ⟨rfl, rfl⟩ := hpq; simp [hx, hy, hb]
    · rw [if_neg (fun e => hpq ⟨e.1, e.2.1⟩)]
      have : ¬ (p = x ∧ q = y ∧ bit = true ∧ p < 64 ∧ q < 32) := fun e => hpq ⟨e.1, e.2.1⟩
      simp [this]
  · rw [if_neg h]
    simp only [Bool.and_eq_true, decide_eq_true_eq] at h
    refine ⟨fun p q => ?_, ?_⟩
    · have : ¬ (p = x ∧ q = y ∧ bit = true ∧ p < 64 ∧ q < 32) := by
        rintro ⟨rfl, rfl, hb, hp, hq⟩; exact h ⟨⟨hb, hp⟩, hq⟩
      simp [this]
    · cases hb : bit
      · simp
      · have : ¬ (x < 64 ∧ y < 32) := fun e => h ⟨⟨hb, e.1⟩, e.2⟩
        simp [Framebuffer.pixel_outside this]

/-- The columns of `ks` of one row. -/
theorem drawCols_spec (x0 y : Nat) (b : Byte) (ks : List Nat) (hk : ∀ k ∈ ks, k < 8) (hn : ks.Nodup) (c : Canvas) :
    (∀ p q, (ks.foldl (fun c k => drawPixel c (x0 + k) y (b.getLsbD (7 - k))) c).1.pixel p q =
      (c.1.pixel p q ^^ decide (q = y ∧ (∃ k ∈ ks, p = x0 + k) ∧ rowBit x0 b p = true ∧ p < 64 ∧ q < 32))) ∧
    ((ks.foldl (fun c k => drawPixel c (x0 + k) y (b.getLsbD (7 - k))) c).2 = true ↔
      (c.2 = true ∨ ∃ k ∈ ks, rowBit x0 b (x0 + k) = true ∧ c.1.pixel (x0 + k) y = true)) := by
  induction ks generalizing c with
  | nil => simp
  | cons k ks ih =>
    have hk8 : k < 8 := hk k (by simp)
    obtain ⟨hnk, hn'⟩ := List.nodup_cons.mp hn
    have hbit : rowBit x0 b (x0 + k) = b.getLsbD (7 - k) := by simp [rowBit, hk8]
    obtain ⟨ih1, ih2⟩ := ih (fun j hj => hk j (by simp [hj])) hn' (drawPixel c (x0 + k) y (b.getLsbD (7 - k)))
    obtain ⟨h1, h2⟩ := drawPixel_spec c (x0 + k) y (b.getLsbD (7 - k))
    rw [List.foldl_cons]
    refine ⟨fun p q => ?_, ?_⟩
    · rw [ih1, h1]
      by_cases hp : p = x0 + k
      · subst hp
        simp [hnk, hbit]
      · simp [hp]
    · rw [ih2, h2]
      have hne : ∀ j ∈ ks, (drawPixel c (x0 + k) y (b.getLsbD (7 - k))).1.pixel (x0 + j) y = c.1.pixel (x0 + j) y := by
        intro j hj
        rw [h1]
        have : j ≠ k := fun e => hnk (e ▸ hj)
        simp [this]
      simp only [List.mem_cons, exists_eq_or_imp, hbit, Bool.or_eq_true, Bool.and_eq_true]
      constructor
      · rintro ((h | h) | ⟨j, hj, hb, hp⟩)
        · exact .inl h
        · exact .inr (.inl h)
        · exact .inr (.inr ⟨j, hj, hb, by rwa [hne j hj] at hp⟩)
      · rintro (h | h | ⟨j, hj, hb, hp⟩)
        · exact .inl (.inl h)
        · exact .inl (.inr h)
        · exact .inr ⟨j, hj, hb, by rwa [hne j hj]⟩

/-- One row drawn. -/
theorem drawRow_spec (c : Canvas) (x0 y : Nat) (b : Byte) :
    (∀ p q, (drawRow c x0 y b).1.pixel p q =
      (c.1.pixel p q ^^ decide (q = y ∧ rowBit x0 b p = true ∧ p < 64 ∧ q < 32))) ∧
    ((drawRow c x0 y b).2 = true ↔ (c.2 = true ∨ ∃ p, rowBit x0 b p = true ∧ c.1.pixel p y = true)) := by
  obtain ⟨h1, h2⟩ := drawCols_spec x0 y b (List.range 8) (fun k hk => List.mem_range.mp hk) List.nodup_range c
  have hcol : ∀ p, rowBit x0 b p = true → ∃ k ∈ List.range 8, p = x0 + k := by
    intro p hp
    simp only [rowBit, Bool.and_eq_true, decide_eq_true_eq] at hp
    exact ⟨p - x0, List.mem_range.mpr (by omega), by omega⟩
  refine ⟨fun p q => ?_, ?_⟩
  · rw [drawRow, h1]
    congr 1
    rw [decide_eq_decide]
    exact ⟨fun ⟨a, _, b, c⟩ => ⟨a, b, c⟩, fun ⟨a, b, c⟩ => ⟨a, hcol p b, b, c⟩⟩
  · rw [drawRow, h2]
    refine or_congr Iff.rfl ⟨?_, ?_⟩
    · rintro ⟨k, -, hb, hp⟩; exact ⟨x0 + k, hb, hp⟩
    · rintro ⟨p, hb, hp⟩
      obtain ⟨k, hk, rfl⟩ := hcol p hb
      exact ⟨k, hk, hb, hp⟩

/-- Whether the sprite of rows `bs` at (x0, y0) has a set bit over (p, q), clipped or not. -/
def spriteBit (x0 y0 : Nat) (bs : List Byte) (p q : Nat) : Bool :=
  decide (y0 ≤ q ∧ q < y0 + bs.length) && rowBit x0 ((bs[q - y0]?).getD 0) p

/-- The whole sprite: a pixel inside the framebuffer under a set bit is flipped, every other is left, and there is a collision
exactly when a lit pixel was flipped. -/
theorem drawRows_spec (x0 y0 : Nat) (bs : List Byte) (c : Canvas) :
    (∀ p q, (drawRows c x0 y0 bs).1.pixel p q =
      (c.1.pixel p q ^^ decide (spriteBit x0 y0 bs p q = true ∧ p < 64 ∧ q < 32))) ∧
    ((drawRows c x0 y0 bs).2 = true ↔
      (c.2 = true ∨ ∃ p q, spriteBit x0 y0 bs p q = true ∧ c.1.pixel p q = true)) := by
  induction bs generalizing y0 c with
  | nil =>
    have hsb : ∀ p q, spriteBit x0 y0 [] p q = false := by
      intro p q
      have : ¬ (y0 ≤ q ∧ q < y0 + ([] : List Byte).length) := by simp
      simp only [spriteBit, this, decide_false, Bool.false_and]
    simp [drawRows, hsb]
  | cons b bs ih =>
    have hhead : ∀ p, spriteBit x0 y0 (b :: bs) p y0 = rowBit x0 b p := by intro p; simp [spriteBit]
    have htail : ∀ p q, q ≠ y0 → spriteBit x0 y0 (b :: bs) p q = spriteBit x0 (y0 + 1) bs p q := by
      intro p q hq
      by_cases h : y0 ≤ q
      · have e : q - y0 = (q - (y0 + 1)) + 1 := by omega
        have i : (y0 ≤ q ∧ q < y0 + (b :: bs).length) ↔ (y0 + 1 ≤ q ∧ q < y0 + 1 + bs.length) := by
          simp only [List.length_cons]; omega
        simp only [spriteBit, e, List.getElem?_cons_succ, i]
      · have h1 : ¬ (y0 ≤ q ∧ q < y0 + (b :: bs).length) := by omega
        have h2 : ¬ (y0 + 1 ≤ q ∧ q < y0 + 1 + bs.length) := by omega
        simp only [spriteBit, h1, h2, decide_false, Bool.false_and]
    have hnone : ∀ p, spriteBit x0 (y0 + 1) bs p y0 = false := by
      intro p
      have : ¬ (y0 + 1 ≤ y0 ∧ y0 < y0 + 1 + bs.length) := by omega
      simp only [spriteBit, this, decide_false, Bool.false_and]
    rw [drawRows]
    split
    · rename_i hy
      have hout : ∀ p q, spriteBit x0 y0 (b :: bs) p q = true → 32 ≤ q := by
        intro p q h
        simp only [spriteBit, Bool.and_eq_true, decide_eq_true_eq] at h
        omega
      refine ⟨fun p q => ?_, ?_⟩
      · have : ¬ (spriteBit x0 y0 (b :: bs) p q = true ∧ p < 64 ∧ q < 32) := by
          rintro ⟨h, -, hq⟩; have := hout p q h; omega
        simp [this]
      · refine ⟨.inl, ?_⟩
        rintro (h | ⟨p, q, h, hp⟩)
        · exact h
        · have := hout p q h
          rw [Framebuffer.pixel_outside (by omega)] at hp
          cases hp
    · obtain ⟨r1, r2⟩ := drawRow_spec c x0 y0 b
      obtain ⟨ih1, ih2⟩ := ih (y0 + 1) (drawRow c x0 y0 b)
      refine ⟨fun p q => ?_, ?_⟩
      · rw [ih1, r1]
        by_cases hq : q = y0
        · subst hq; simp [hhead, hnone]
        · simp [hq, htail p q hq]
      · rw [ih2, r2]
        have hkeep : ∀ p q, q ≠ y0 → (drawRow c x0 y0 b).1.pixel p q = c.1.pixel p q := by
          intro p q hq; rw [r1]; simp [hq]
        constructor
        · rintro ((h | ⟨p, hb, hp⟩) | ⟨p, q, hb, hp⟩)
          · exact .inl h
          · exact .inr ⟨p, y0, by rw [hhead]; exact hb, hp⟩
          · have hq : q ≠ y0 := by rintro rfl; rw [hnone] at hb; cases hb
            exact .inr ⟨p, q, by rw [htail p q hq]; exact hb, by rwa [hkeep p q hq] at hp⟩
        · rintro (h | ⟨p, q, hb, hp⟩)
          · exact .inl (.inl h)
          · by_cases hq : q = y0
            · subst hq; exact .inl (.inr ⟨p, by rwa [hhead] at hb, hp⟩)
            · exact .inr ⟨p, q, by rwa [htail p q hq] at hb, by rwa [hkeep p q hq]⟩

end Sys2Proof.Machine
end

