-- ==== Sys2Proof/Laws/PerInstr.lean ====
section
/-! SUPPORT. Per instruction: the encoded word has the match of the instruction's own row of the opcode map under that row's mask
(spec/30_encoding.md R306; spec/opcode_table.json). -/

namespace Sys2Proof.Laws.EncodedInOwnRow

/-- Some row of the opcode map has the instruction's mnemonic and matches its encoded word. -/
def Statement (i : Instr) : Prop := ∃ r ∈ opcodeRows, r.mnemonic = i.mnemonic ∧ r.selects (encode i) = true

/-- The instruction's row, and the masked word. -/
theorem of_and {i : Instr} (mask pattern : Word) (hr : OpcodeRow.mk mask pattern i.mnemonic ∈ opcodeRows)
    (h : encode i &&& mask = pattern) : Statement i :=
  ⟨_, hr, rfl, by simp [OpcodeRow.selects, h]⟩

theorem cls : Statement (.cls) :=
  of_and 0xF0FF 0x00E0 (by decide) (by decide)

theorem ret : Statement (.ret) :=
  of_and 0xF0FF 0x00EE (by decide) (by decide)

theorem sys (nnn : Addr12) : Statement (.sys nnn) :=
  of_and 0xF000 0x0000 (by simp [opcodeRows, Instr.mnemonic]) (by rw [encode, and_F000, fieldFamily_encodeNNN]; rfl)

theorem jp (nnn : Addr12) : Statement (.jp nnn) :=
  of_and 0xF000 0x1000 (by simp [opcodeRows, Instr.mnemonic]) (by rw [encode, and_F000, fieldFamily_encodeNNN]; rfl)

theorem call (nnn : Addr12) : Statement (.call nnn) :=
  of_and 0xF000 0x2000 (by simp [opcodeRows, Instr.mnemonic]) (by rw [encode, and_F000, fieldFamily_encodeNNN]; rfl)

theorem seImm (x : Reg) (nn : Byte) : Statement (.seImm x nn) :=
  of_and 0xF000 0x3000 (by simp [opcodeRows, Instr.mnemonic]) (by rw [encode, and_F000, fieldFamily_encodeXNN]; rfl)

theorem sneImm (x : Reg) (nn : Byte) : Statement (.sneImm x nn) :=
  of_and 0xF000 0x4000 (by simp [opcodeRows, Instr.mnemonic]) (by rw [encode, and_F000, fieldFamily_encodeXNN]; rfl)

theorem seReg (x y : Reg) : Statement (.seReg x y) :=
  of_and 0xF000 0x5000 (by simp [opcodeRows, Instr.mnemonic]) (by rw [encode, and_F000, fieldFamily_encodeXYN]; rfl)

theorem ldImm (x : Reg) (nn : Byte) : Statement (.ldImm x nn) :=
  of_and 0xF000 0x6000 (by simp [opcodeRows, Instr.mnemonic]) (by rw [encode, and_F000, fieldFamily_encodeXNN]; rfl)

theorem addImm (x : Reg) (nn : Byte) : Statement (.addImm x nn) :=
  of_and 0xF000 0x7000 (by simp [opcodeRows, Instr.mnemonic]) (by rw [encode, and_F000, fieldFamily_encodeXNN]; rfl)

theorem ldReg (x y : Reg) : Statement (.ldReg x y) :=
  of_and 0xF00F 0x8000 (by simp [opcodeRows, Instr.mnemonic]) (by rw [encode, and_F00F, fieldFamily_encodeXYN, fieldN_encodeXYN]; rfl)

theorem orReg (x y : Reg) : Statement (.orReg x y) :=
  of_and 0xF00F 0x8001 (by simp [opcodeRows, Instr.mnemonic]) (by rw [encode, and_F00F, fieldFamily_encodeXYN, fieldN_encodeXYN]; rfl)

theorem andReg (x y : Reg) : Statement (.andReg x y) :=
  of_and 0xF00F 0x8002 (by simp [opcodeRows, Instr.mnemonic]) (by rw [encode, and_F00F, fieldFamily_encodeXYN, fieldN_encodeXYN]; rfl)

theorem xorReg (x y : Reg) : Statement (.xorReg x y) :=
  of_and 0xF00F 0x8003 (by simp [opcodeRows, Instr.mnemonic]) (by rw [encode, and_F00F, fieldFamily_encodeXYN, fieldN_encodeXYN]; rfl)

theorem addReg (x y : Reg) : Statement (.addReg x y) :=
  of_and 0xF00F 0x8004 (by simp [opcodeRows, Instr.mnemonic]) (by rw [encode, and_F00F, fieldFamily_encodeXYN, fieldN_encodeXYN]; rfl)

theorem subReg (x y : Reg) : Statement (.subReg x y) :=
  of_and 0xF00F 0x8005 (by simp [opcodeRows, Instr.mnemonic]) (by rw [encode, and_F00F, fieldFamily_encodeXYN, fieldN_encodeXYN]; rfl)

theorem shr (x y : Reg) : Statement (.shr x y) :=
  of_and 0xF00F 0x8006 (by simp [opcodeRows, Instr.mnemonic]) (by rw [encode, and_F00F, fieldFamily_encodeXYN, fieldN_encodeXYN]; rfl)

theorem subn (x y : Reg) : Statement (.subn x y) :=
  of_and 0xF00F 0x8007 (by simp [opcodeRows, Instr.mnemonic]) (by rw [encode, and_F00F, fieldFamily_encodeXYN, fieldN_encodeXYN]; rfl)

theorem shl (x y : Reg) : Statement (.shl x y) :=
  of_and 0xF00F 0x800E (by simp [opcodeRows, Instr.mnemonic]) (by rw [encode, and_F00F, fieldFamily_encodeXYN, fieldN_encodeXYN]; rfl)

theorem nop8 (x y : Reg) (n : Nibble) : Statement (.nop8 x y n) :=
  of_and 0xF000 0x8000 (by simp [opcodeRows, Instr.mnemonic]) (by rw [encode, and_F000, fieldFamily_encodeXYN]; rfl)

theorem sneReg (x y : Reg) : Statement (.sneReg x y) :=
  of_and 0xF000 0x9000 (by simp [opcodeRows, Instr.mnemonic]) (by rw [encode, and_F000, fieldFamily_encodeXYN]; rfl)

theorem ldI (nnn : Addr12) : Statement (.ldI nnn) :=
  of_and 0xF000 0xA000 (by simp [opcodeRows, Instr.mnemonic]) (by rw [encode, and_F000, fieldFamily_encodeNNN]; rfl)

theorem jpV0 (nnn : Addr12) : Statement (.jpV0 nnn) :=
  of_and 0xF000 0xB000 (by simp [opcodeRows, Instr.mnemonic]) (by rw [encode, and_F000, fieldFamily_encodeNNN]; rfl)

theorem rnd (x : Reg) (nn : Byte) : Statement (.rnd x nn) :=
  of_and 0xF000 0xC000 (by simp [opcodeRows, Instr.mnemonic]) (by rw [encode, and_F000, fieldFamily_encodeXNN]; rfl)

theorem drw (x y : Reg) (n : Nibble) : Statement (.drw x y n) :=
  of_and 0xF000 0xD000 (by simp [opcodeRows, Instr.mnemonic]) (by rw [encode, and_F000, fieldFamily_encodeXYN]; rfl)

theorem skp (x : Reg) : Statement (.skp x) :=
  of_and 0xF0FF 0xE09E (by simp [opcodeRows, Instr.mnemonic])
    (by rw [encode, encodeXNN_eq_encodeXYN, and_F0FF, fieldFamily_encodeXYN, fieldY_encodeXYN, fieldN_encodeXYN]; rfl)

theorem sknp (x : Reg) : Statement (.sknp x) :=
  of_and 0xF0FF 0xE0A1 (by simp [opcodeRows, Instr.mnemonic])
    (by rw [encode, encodeXNN_eq_encodeXYN, and_F0FF, fieldFamily_encodeXYN, fieldY_encodeXYN, fieldN_encodeXYN]; rfl)

theorem nope (x : Reg) (nn : Byte) : Statement (.nope x nn) :=
  of_and 0xF000 0xE000 (by simp [opcodeRows, Instr.mnemonic]) (by rw [encode, and_F000, fieldFamily_encodeXNN]; rfl)

theorem ldVxDt (x : Reg) : Statement (.ldVxDt x) :=
  of_and 0xF0FF 0xF007 (by simp [opcodeRows, Instr.mnemonic])
    (by rw [encode, encodeXNN_eq_encodeXYN, and_F0FF, fieldFamily_encodeXYN, fieldY_encodeXYN, fieldN_encodeXYN]; rfl)

theorem ldVxK (x : Reg) : Statement (.ldVxK x) :=
  of_and 0xF0FF 0xF00A (by simp [opcodeRows, Instr.mnemonic])
    (by rw [encode, encodeXNN_eq_encodeXYN, and_F0FF, fieldFamily_encodeXYN, fieldY_encodeXYN, fieldN_encodeXYN]; rfl)

theorem ldDtVx (x : Reg) : Statement (.ldDtVx x) :=
  of_and 0xF0FF 0xF015 (by simp [opcodeRows, Instr.mnemonic])
    (by rw [encode, encodeXNN_eq_encodeXYN, and_F0FF, fieldFamily_encodeXYN, fieldY_encodeXYN, fieldN_encodeXYN]; rfl)

theorem ldStVx (x : Reg) : Statement (.ldStVx x) :=
  of_and 0xF0FF 0xF018 (by simp [opcodeRows, Instr.mnemonic])
    (by rw [encode, encodeXNN_eq_encodeXYN, and_F0FF, fieldFamily_encodeXYN, fieldY_encodeXYN, fieldN_encodeXYN]; rfl)

theorem addI (x : Reg) : Statement (.addI x) :=
  of_and 0xF0FF 0xF01E (by simp [opcodeRows, Instr.mnemonic])
    (by rw [encode, encodeXNN_eq_encodeXYN, and_F0FF, fieldFamily_encodeXYN, fieldY_encodeXYN, fieldN_encodeXYN]; rfl)

theorem ldF (x : Reg) : Statement (.ldF x) :=
  of_and 0xF0FF 0xF029 (by simp [opcodeRows, Instr.mnemonic])
    (by rw [encode, encodeXNN_eq_encodeXYN, and_F0FF, fieldFamily_encodeXYN, fieldY_encodeXYN, fieldN_encodeXYN]; rfl)

theorem ldB (x : Reg) : Statement (.ldB x) :=
  of_and 0xF0FF 0xF033 (by simp [opcodeRows, Instr.mnemonic])
    (by rw [encode, encodeXNN_eq_encodeXYN, and_F0FF, fieldFamily_encodeXYN, fieldY_encodeXYN, fieldN_encodeXYN]; rfl)

theorem ldMemVx (x : Reg) : Statement (.ldMemVx x) :=
  of_and 0xF0FF 0xF055 (by simp [opcodeRows, Instr.mnemonic])
    (by rw [encode, encodeXNN_eq_encodeXYN, and_F0FF, fieldFamily_encodeXYN, fieldY_encodeXYN, fieldN_encodeXYN]; rfl)

theorem ldVxMem (x : Reg) : Statement (.ldVxMem x) :=
  of_and 0xF0FF 0xF065 (by simp [opcodeRows, Instr.mnemonic])
    (by rw [encode, encodeXNN_eq_encodeXYN, and_F0FF, fieldFamily_encodeXYN, fieldY_encodeXYN, fieldN_encodeXYN]; rfl)

theorem nopf (x : Reg) (nn : Byte) : Statement (.nopf x nn) :=
  of_and 0xF000 0xF000 (by simp [opcodeRows, Instr.mnemonic]) (by rw [encode, and_F000, fieldFamily_encodeXNN]; rfl)

end Sys2Proof.Laws.EncodedInOwnRow
end

