-- ==== Sys2Proof/Laws/Stack.lean ====
section
/-! SUPPORT. What a push, a pop, the timers and the fetch can do (spec/10_state.md R116; spec/40_cycle.md R402, R406, R407). -/

namespace Sys2Proof.Machine

variable {s t : State}

/-- A push that succeeds: there was room, the slot at sp holds the value, sp is one more, every other slot is as before. -/
theorem State.push_eq_some {w : Word} (h : s.push w = some t) :
    ∃ hs : s.sp.val < 16, t = s.setStack (s.stack.set s.sp.val (some w)) ⟨s.sp.val + 1, by omega⟩ := by
  unfold State.push at h
  split at h
  · rename_i hs; exact ⟨hs, (Option.some.inj h).symm⟩
  · cases h

/-- A push fails when the stack is full, and only then. -/
theorem State.push_eq_none {w : Word} : s.push w = none ↔ s.sp.val = 16 := by
  have := s.sp.isLt
  unfold State.push
  split <;> simp <;> omega

/-- A pop that succeeds: sp was not 0; it gives the slot below sp and leaves every slot in place. -/
theorem State.pop_eq_some {w : Option Word} (h : s.pop = some (w, t)) :
    ∃ hs : 0 < s.sp.val, w = s.stack[s.sp.val - 1] ∧ t = s.setStack s.stack ⟨s.sp.val - 1, by omega⟩ := by
  unfold State.pop at h
  split at h
  · rename_i hs
    have := Prod.mk.inj (Option.some.inj h)
    exact ⟨hs, this.1.symm, this.2.symm⟩
  · cases h

/-- A pop fails when the stack is empty, and only then. -/
theorem State.pop_eq_none : s.pop = none ↔ s.sp.val = 0 := by
  unfold State.pop
  split <;> simp <;> omega

/-- R406: the delay timer goes down by one, and stays at 0. -/
theorem State.countDelay_def (s : State) : s.countDelay = s.setDt (if s.dt = 0 then s.dt else s.dt - 1) := by
  unfold State.countDelay
  split <;> rfl

/-- R407: the sound timer goes down by one, and stays at 0; the step from 1 to 0 emits ToneRestart. -/
theorem State.countSound_def (s : State) :
    s.countSound = (s.setSt (if s.st = 0 then s.st else s.st - 1)).setEvents
      (if s.st = 1 then s.events ++ [.toneRestart] else s.events) := by
  unfold State.countSound
  by_cases h0 : s.st = 0
  · rw [if_pos h0, if_pos h0, if_neg (by rw [h0]; decide)]; rfl
  · rw [if_neg h0, if_neg h0]
    by_cases h1 : s.st = 1
    · rw [if_pos h1, if_pos (by rw [h1]; rfl)]; rfl
    · rw [if_neg h1, if_neg (fun h => h1 (by bv_omega))]; rfl

/-- The value of a timer after its countdown, as a number. -/
theorem countdown_toNat (b : Byte) : (if b = 0 then b else b - 1).toNat = b.toNat - 1 := by
  split
  · rename_i h; simp [h]
  · rename_i h
    have : b.toNat ≠ 0 := fun e => h (BitVec.eq_of_toNat_eq (by simpa using e))
    bv_omega

/-- R202, R402: the byte at pc is the high byte of the word. -/
theorem State.fetchWord_toNat (s : State) :
    s.fetchWord.toNat = (s.read8 s.pc.toNat).toNat * 256 + (s.read8 (s.pc.toNat + 1)).toNat := by
  simp only [State.fetchWord, wordOfBytes, BitVec.toNat_append]
  rw [← Nat.shiftLeft_add_eq_or_of_lt (BitVec.isLt _), Nat.shiftLeft_eq]

end Sys2Proof.Machine
end

