-- ==== Sys2Proof/Laws/Step.lean ====
section
/-! SUPPORT. Everything a cycle and a step can do, said once (spec/40_cycle.md R400 to R409). -/

namespace Sys2Proof.Machine

variable {s t : State}

/-- R401: the fetch check as arithmetic. -/
theorem State.fetchFaults_iff (s : State) : s.fetchFaults = true ↔ 4094 ≤ s.pc.toNat := by
  unfold State.fetchFaults
  rw [decide_eq_true_eq]
  rfl

/-- R406, R407: the countdown, as updates of three fields. -/
theorem State.countTimers_def (s : State) :
    s.countTimers = ((s.setDt (if s.dt = 0 then s.dt else s.dt - 1)).setSt (if s.st = 0 then s.st else s.st - 1)).setEvents
      (if s.st = 1 then s.events ++ [.toneRestart] else s.events) := by
  rw [State.countTimers, State.countDelay_def, State.countSound_def]
  rfl

/-- The countdown reads and writes no other field. -/
theorem State.countTimers_frame (s : State) :
    ∃ d b es, s.countTimers = ((s.setDt d).setSt b).setEvents es := ⟨_, _, _, State.countTimers_def s⟩

/-- While Running a step is a cycle. -/
theorem step_running (h : s.status = .running) : step s = cycle s := if_pos h

/-- In every other status a step changes nothing. -/
theorem step_idle (h : s.status ≠ .running) : step s = .next s := if_neg h

/-- A host's step() in Stopped and Paused is a cycle. -/
theorem hostStep_allowed (h : s.status.allowsStep = true) :
    hostStep s = .next (t, .done) ↔ cycle s = .next t := by
  rw [hostStep, if_pos h]
  cases cycle s <;> simp

/-- A cycle, whatever the state: the fetch check, then the instruction and the end of its cycle. -/
theorem cycle_eq (s : State) :
    cycle s =
      if 4094 ≤ s.pc.toNat then .next (s.raise .outOfBoundsFetch s.pc)
      else match exec (decodeWord s.fetchWord) s with
        | .next u => .next u.endCycle
        | .fault r => .fault r
        | .refused r => .refused r :=
  if_congr (State.fetchFaults_iff s) rfl rfl

/-- A cycle that executes the word at pc. -/
theorem cycle_exec (hp : s.pc.toNat < 4094) :
    cycle s = match exec (decodeWord s.fetchWord) s with
      | .next u => .next u.endCycle
      | .fault r => .fault r
      | .refused r => .refused r := by
  rw [cycle_eq, if_neg (by omega)]

/-- The inversion of a cycle: a fetch fault, or an instruction and the end of its cycle. -/
theorem cycle_cases (h : cycle s = .next t) :
    (4094 ≤ s.pc.toNat ∧ t = s.raise .outOfBoundsFetch s.pc) ∨
    (s.pc.toNat < 4094 ∧ ∃ u, exec (decodeWord s.fetchWord) s = .next u ∧ t = u.endCycle) := by
  rcases Nat.lt_or_ge s.pc.toNat 4094 with hp | hp
  · rw [cycle_exec hp] at h
    cases he : exec (decodeWord s.fetchWord) s with
    | next u => rw [he] at h; injection h with h; exact .inr ⟨hp, u, rfl, h.symm⟩
    | fault r => rw [he] at h; cases h
    | refused r => rw [he] at h; cases h
  · rw [cycle_eq, if_pos hp] at h; injection h with h; exact .inl ⟨hp, h.symm⟩

/-- The inversion of a step: nothing outside Running, a cycle in it. -/
theorem step_cases (h : step s = .next t) : (s.status ≠ .running ∧ t = s) ∨ (s.status = .running ∧ cycle s = .next t) := by
  by_cases hs : s.status = .running
  · exact .inr ⟨hs, by rw [← step_running hs]; exact h⟩
  · rw [step_idle hs] at h; injection h with h; exact .inl ⟨hs, h.symm⟩

/-- A cycle that takes one state to another, by the engine or by a host's step(): it starts outside Faulted. -/
theorem cyclesTo_iff : s.CyclesTo t ↔ s.status.isFaulted = false ∧ cycle s = .next t := by
  unfold State.CyclesTo
  cases hs : s.status <;>
    simp [hs, Status.allowsStep, Status.isFaulted, transact, hostStep_allowed, step_running]

end Sys2Proof.Machine
end

