-- ==== Sys2Proof/Tests/Slice0.lean ====
section
/-! SUPPORT. Tests. Expected results are the spec's own (spec/95_test_vectors.md, cited by the vector's id) or worked out by hand from
the rule named; each runs one step. After them, for every statement with hypotheses, a witness that meets them. -/

namespace Sys2Proof.Tests

open Sys2Proof.Machine

/-- A test on the state that one step leaves from `s` with the word `w` at pc. -/
def after (s : State) (w : Nat) (test : State → Bool) : Bool :=
  match step (s.withFetchWord 16 w) with
  | .next t => test t
  | .fault _ | .refused _ => false

/-- A test on the state and the reply that a transaction leaves. -/
def replied (s : State) (r : Request) (test : State → Reply → Bool) : Bool :=
  match transact r s with
  | .next (t, y) => test t y
  | .fault _ | .refused _ => false

/-- Reset with registers 0, 1, 2 set. -/
def regs (a b c : Byte) : State := ((State.reset.setV 0 a).setV 1 b).setV 2 c

/-- A state with the non-default value of the three modes (spec/00_scope.md R8). -/
def otherModes (s : State) : State :=
  { s with config := { s.config with shiftSource := .vy, fontIndexMode := .lowNibble, loadStoreIMode := .increment } }

/-- Reset with LD V10, 5 at pc, Stopped. -/
def idle : State := State.reset.placeWord 0x6A05

/-- A state with the stack's slots all holding `a`, and the pointer. -/
def withStack (s : State) (a : Word) (sp : Fin 17) : State := s.setStack (Vector.replicate 16 (some a)) sp

/-! ### WellFormed -/

theorem test_wf_refuses_cls_as_sys : (Instr.sys 0x0E0).wf = false := by decide
theorem test_wf_refuses_ret_as_sys : (Instr.sys 0xAEE).wf = false := by decide
theorem test_wf_refuses_function_as_nop8 : ∀ n ∈ functions8, (Instr.nop8 1 2 n).wf = false := by decide
theorem test_wf_refuses_function_as_nope : (Instr.nope 3 0x9E).wf = false ∧ (Instr.nope 3 0xA1).wf = false := by decide
theorem test_wf_refuses_function_as_nopf : ∀ nn ∈ functionsF, (Instr.nopf 3 nn).wf = false := by decide
theorem test_wf_accepts_fallbacks :
    (Instr.sys 0x0E1).wf = true ∧ (Instr.nop8 1 2 0xF).wf = true ∧ (Instr.nope 3 0x9F).wf = true ∧ (Instr.nopf 3 0x75).wf = true := by
  decide

/-! ### Decode: a word written out from R306 for every instruction -/

theorem test_decode_cls : decodeWord 0b0000_0000_1110_0000 = .cls := by decide
theorem test_decode_cls_ignored : decodeWord 0b0000_0011_1110_0000 = .cls := by decide
theorem test_decode_ret : decodeWord 0b0000_0000_1110_1110 = .ret := by decide
theorem test_decode_ret_ignored : decodeWord 0b0000_0101_1110_1110 = .ret := by decide
theorem test_decode_sys : decodeWord 0b0000_0001_0010_0011 = .sys 0x123 := by decide
theorem test_decode_jp : decodeWord 0b0001_0010_0011_0100 = .jp 0x234 := by decide
theorem test_decode_call : decodeWord 0b0010_0011_0000_0001 = .call 0x301 := by decide
theorem test_decode_seImm : decodeWord 0b0011_0011_0100_0010 = .seImm 3 0x42 := by decide
theorem test_decode_sneImm : decodeWord 0b0100_0011_0100_0010 = .sneImm 3 0x42 := by decide
theorem test_decode_seReg : decodeWord 0b0101_0001_0010_1111 = .seReg 1 2 := by decide
theorem test_decode_ldImm : decodeWord 0b0110_1010_0000_0101 = .ldImm 10 5 := by decide
theorem test_decode_addImm : decodeWord 0b0111_1111_0000_0010 = .addImm 15 2 := by decide
theorem test_decode_ldReg : decodeWord 0b1000_0001_0010_0000 = .ldReg 1 2 := by decide
theorem test_decode_orReg : decodeWord 0b1000_0001_0010_0001 = .orReg 1 2 := by decide
theorem test_decode_andReg : decodeWord 0b1000_0001_0010_0010 = .andReg 1 2 := by decide
theorem test_decode_xorReg : decodeWord 0b1000_0001_0010_0011 = .xorReg 1 2 := by decide
theorem test_decode_addReg : decodeWord 0b1000_1111_0001_0100 = .addReg 15 1 := by decide
theorem test_decode_subReg : decodeWord 0b1000_0001_0010_0101 = .subReg 1 2 := by decide
theorem test_decode_shr : decodeWord 0b1000_0001_0010_0110 = .shr 1 2 := by decide
theorem test_decode_subn : decodeWord 0b1000_0001_0010_0111 = .subn 1 2 := by decide
theorem test_decode_shl : decodeWord 0b1000_0001_0010_1110 = .shl 1 2 := by decide
theorem test_decode_nop8 : decodeWord 0b1000_0001_0010_1111 = .nop8 1 2 0xF := by decide
theorem test_decode_sneReg : decodeWord 0b1001_0001_0010_0111 = .sneReg 1 2 := by decide
theorem test_decode_ldI : decodeWord 0b1010_0011_0000_0010 = .ldI 0x302 := by decide
theorem test_decode_jpV0 : decodeWord 0b1011_1111_1111_1110 = .jpV0 0xFFE := by decide
theorem test_decode_rnd : decodeWord 0b1100_0011_0000_1111 = .rnd 3 0x0F := by decide
theorem test_decode_drw : decodeWord 0b1101_0001_0010_0101 = .drw 1 2 5 := by decide
theorem test_decode_skp : decodeWord 0b1110_0010_1001_1110 = .skp 2 := by decide
theorem test_decode_sknp : decodeWord 0b1110_0010_1010_0001 = .sknp 2 := by decide
theorem test_decode_nope : decodeWord 0b1110_0001_1001_1111 = .nope 1 0x9F := by decide
theorem test_decode_ldVxDt : decodeWord 0b1111_0011_0000_0111 = .ldVxDt 3 := by decide
theorem test_decode_ldVxK : decodeWord 0b1111_0101_0000_1010 = .ldVxK 5 := by decide
theorem test_decode_ldDtVx : decodeWord 0b1111_0100_0001_0101 = .ldDtVx 4 := by decide
theorem test_decode_ldStVx : decodeWord 0b1111_0100_0001_1000 = .ldStVx 4 := by decide
theorem test_decode_addI : decodeWord 0b1111_0001_0001_1110 = .addI 1 := by decide
theorem test_decode_ldF : decodeWord 0b1111_0010_0010_1001 = .ldF 2 := by decide
theorem test_decode_ldB : decodeWord 0b1111_0100_0011_0011 = .ldB 4 := by decide
theorem test_decode_ldMemVx : decodeWord 0b1111_0010_0101_0101 = .ldMemVx 2 := by decide
theorem test_decode_ldVxMem : decodeWord 0b1111_1111_0110_0101 = .ldVxMem 15 := by decide
theorem test_decode_nopf : decodeWord 0b1111_0000_0111_0101 = .nopf 0 0x75 := by decide

theorem test_decode_takes_two_bytes_high_first : decode [0xD1, 0x25, 0x77] = .ok (.drw 1 2 5, [0x77]) := by rfl
theorem test_decode_refuses_one_byte : decode [0xD1] = .error .truncated ∧ decode [] = .error .truncated := by decide
theorem test_decodeTableWord : decodeTableWord 16 0x00E0 = some .cls ∧ decodeTableWord 16 0x2301 = some (.call 0x301) ∧
    decodeTableWord 24 0 = none := by decide
theorem test_encode_drw : encode (.drw 1 2 5) = 0xD125 := by decide
theorem test_withFetchWord_is_big_endian : (State.reset.withFetchWord 16 0xD125).mem = [(512, 0xD1), (513, 0x25)] := by decide
theorem test_withFetchWord_zero_keeps_memory : (State.reset.withFetchWord 16 0).mem = [] := by decide

/-! ### One step per vector -/

/-- V-F2. -/
theorem test_fetch_below_limit :
    after ((State.reset.setPc 0xFFC)) 0x6001 (fun t => t.reg 0 == 1 && t.pc == 0xFFE) = true := by decide
/-- V-F3. -/
theorem test_fetch_at_limit :
    after (State.reset.setPc 0xFFE) 0x6001 (fun t => t.status == .faulted .outOfBoundsFetch 0xFFE && t.pc == 0xFFE && t.reg 0 == 0) = true := by decide
/-- V-F4. -/
theorem test_fetch_odd_pc :
    after (State.reset.setPc 0x201) 0x7005 (fun t => t.reg 0 == 5 && t.pc == 0x203) = true := by decide
/-- V-F5. -/
theorem test_countdown_emits_restart :
    after ((State.reset.setDt 1).setSt 1) 0x0000 (fun t => t.pc == 0x202 && t.dt == 0 && t.st == 0 && t.events == [.toneRestart]) = true := by decide
/-- V-F6. -/
theorem test_faulting_cycle_keeps_timers :
    after (withStack (State.reset.setDt 5) 0x202 16) 0x2200 (fun t => t.status == .faulted .stackOverflow 0x200 && t.dt == 5 && t.pc == 0x200) = true := by decide
/-- R400, R654: the engine idles in Stopped, Paused and Faulted; no instruction runs and no timer counts. -/
theorem test_engine_idles : ∀ x ∈ [Status.stopped, .paused, .faulted .indexOverflow 7],
    step ((idle.setDt 5).setStatus x) = .next ((idle.setDt 5).setStatus x) := by
  intro x hx
  simp only [List.mem_cons, List.not_mem_nil, or_false] at hx
  rcases hx with rfl | rfl | rfl <;> rfl
/-- V-C1. -/
theorem test_jp :
    after (State.reset.setPc 0x202) 0x1200 (fun t => t.pc == 0x200) = true := by decide
/-- V-C4. -/
theorem test_call_first_slot :
    after State.reset 0x2300 (fun t => t.stack[0] == some 0x202 && t.sp == 1 && t.pc == 0x300) = true := by decide
/-- V-C5. -/
theorem test_call_last_slot :
    after ((withStack State.reset 0x202 15).setPc 0x250) 0x2400 (fun t => t.stack[15] == some 0x252 && t.stack[14] == some 0x202 && t.sp == 16 && t.pc == 0x400) = true := by decide
/-- V-C9. -/
theorem test_ret :
    after ((withStack State.reset 0x202 1).setPc 0x300) 0x05EE (fun t => t.pc == 0x202 && t.sp == 0 && t.stack[0] == some 0x202) = true := by decide
/-- V-C8. -/
theorem test_ret_underflow :
    after (State.reset.setPc 0x300) 0x00EE (fun t => t.status == .faulted .stackUnderflow 0x300 && t.pc == 0x300) = true := by decide
/-- V-C11. -/
theorem test_jpV0_is_not_reduced :
    after (regs 0xFF 0 0) 0xBFFF (fun t => t.pc == 4350) = true := by decide
/-- V-S1. -/
theorem test_seImm_taken :
    after (State.reset.setV 3 0x42) 0x3342 (fun t => t.pc == 0x204) = true := by decide
/-- V-S2. -/
theorem test_seImm_untaken :
    after (State.reset.setV 3 0x41) 0x3342 (fun t => t.pc == 0x202) = true := by decide
/-- V-S3. -/
theorem test_sneImm_taken :
    after (State.reset.setV 3 0x41) 0x4342 (fun t => t.pc == 0x204) = true := by decide
/-- V-S4. -/
theorem test_sneImm_untaken :
    after (State.reset.setV 3 0x42) 0x4342 (fun t => t.pc == 0x202) = true := by decide
/-- V-S6. -/
theorem test_seReg_taken :
    after (regs 0 7 7) 0x512F (fun t => t.pc == 0x204) = true := by decide
/-- V-S7. -/
theorem test_seReg_untaken :
    after (regs 0 7 8) 0x5120 (fun t => t.pc == 0x202) = true := by decide
/-- V-S8. -/
theorem test_sneReg_taken :
    after (regs 0 7 8) 0x9120 (fun t => t.pc == 0x204) = true := by decide
/-- V-S9. -/
theorem test_sneReg_same_register :
    after (regs 0 7 8) 0x9110 (fun t => t.pc == 0x202) = true := by decide
/-- V-S10. -/
theorem test_skp_taken :
    after ((regs 0 0 5).setKey (some 5)) 0xE29E (fun t => t.pc == 0x204 && t.key == some 5) = true := by decide
/-- V-S12. -/
theorem test_skp_no_key :
    after (regs 0 0 0) 0xE29E (fun t => t.pc == 0x202) = true := by decide
/-- V-S13. -/
theorem test_sknp_no_key :
    after (regs 0 0 0) 0xE2A1 (fun t => t.pc == 0x204) = true := by decide
/-- V-S15. -/
theorem test_sknp_register_above_15 :
    after ((regs 0 0 0x10).setKey (some 0)) 0xE2A1 (fun t => t.pc == 0x204) = true := by decide
/-- V-A1. -/
theorem test_ldImm :
    after State.reset 0x6A05 (fun t => t.reg 10 == 5 && t.pc == 0x202) = true := by decide
/-- V-A3. -/
theorem test_addImm_sets_no_flag :
    after (regs 0xFF 0 0) 0x7001 (fun t => t.reg 0 == 0 && t.reg 15 == 0) = true := by decide
/-- V-A4. -/
theorem test_addImm_flag_register :
    after (State.reset.setV 15 3) 0x7F02 (fun t => t.reg 15 == 5) = true := by decide
/-- V-A5. -/
theorem test_ldReg :
    after (regs 0 9 0) 0x8010 (fun t => t.reg 0 == 9 && t.reg 1 == 9) = true := by decide
/-- V-A6. -/
theorem test_orReg_keeps_flag :
    after ((regs 0x0F 0xF0 0).setV 15 7) 0x8011 (fun t => t.reg 0 == 0xFF && t.reg 15 == 7) = true := by decide
/-- V-A7. -/
theorem test_andReg :
    after (regs 0x3C 0x0F 0) 0x8012 (fun t => t.reg 0 == 0x0C) = true := by decide
/-- V-A8. -/
theorem test_xorReg :
    after (regs 0xFF 0x0F 0) 0x8013 (fun t => t.reg 0 == 0xF0) = true := by decide
/-- V-A10, with VF = 1 before. -/
theorem test_addReg_255_no_carry :
    after ((regs 0x80 0x7F 0).setV 15 1) 0x8014 (fun t => t.reg 0 == 0xFF && t.reg 15 == 0) = true := by decide
/-- V-A12. -/
theorem test_addReg_flag_overwrites_sum :
    after ((regs 0 1 0).setV 15 0xFF) 0x8F14 (fun t => t.reg 15 == 1) = true := by decide
/-- V-A14. -/
theorem test_subReg_borrow :
    after (regs 0 1 0) 0x8015 (fun t => t.reg 0 == 0xFF && t.reg 15 == 0) = true := by decide
/-- V-A15. -/
theorem test_subReg_same_register :
    after (regs 9 0 0) 0x8005 (fun t => t.reg 0 == 0 && t.reg 15 == 1) = true := by decide
/-- V-A17. -/
theorem test_subn :
    after (regs 5 7 0) 0x8017 (fun t => t.reg 0 == 2 && t.reg 15 == 1) = true := by decide
/-- V-A18. -/
theorem test_subn_borrow :
    after (regs 7 5 0) 0x8017 (fun t => t.reg 0 == 0xFE && t.reg 15 == 0) = true := by decide
/-- V-A21, SHIFT_SOURCE = VX. -/
theorem test_shr_vx :
    after (regs 4 3 0) 0x8016 (fun t => t.reg 0 == 2 && t.reg 15 == 0) = true := by decide
/-- V-A21, SHIFT_SOURCE = VY. -/
theorem test_shr_vy :
    after (otherModes (regs 4 3 0)) 0x8016 (fun t => t.reg 0 == 1 && t.reg 15 == 1 && t.reg 1 == 3) = true := by decide
/-- V-A23, SHIFT_SOURCE = VX. -/
theorem test_shl_vx :
    after (regs 4 0x81 0) 0x801E (fun t => t.reg 0 == 8 && t.reg 15 == 0) = true := by decide
/-- V-A23, SHIFT_SOURCE = VY. -/
theorem test_shl_vy :
    after (otherModes (regs 4 0x81 0)) 0x801E (fun t => t.reg 0 == 2 && t.reg 15 == 1) = true := by decide
/-- V-A25: the register is the draw ANDed with NN; the draw itself is free. -/
theorem test_rnd_masks_draw :
    ∃ t, exec (.rnd 3 0x0F) State.reset = .next t ∧ t.reg 3 = Config.draw 0 &&& 0x0F ∧ t.draws = 1 := ⟨_, rfl, rfl, rfl⟩
/-- V-A26. -/
theorem test_rnd_zero_mask : ∃ t, exec (.rnd 3 0) (State.reset.setV 3 9) = .next t ∧ t.reg 3 = 0 :=
  ⟨_, rfl, show Config.draw 0 &&& 0 = 0 from BitVec.and_zero⟩
/-- V-M1. -/
theorem test_ldI :
    after State.reset 0xAFFF (fun t => t.i == 0xFFF) = true := by decide
/-- V-M2. -/
theorem test_addI_beyond_memory :
    after ((regs 0 3 0).setI 0xFFE) 0xF11E (fun t => t.i == 0x1001 && t.reg 15 == 0) = true := by decide
/-- V-M3. -/
theorem test_addI_overflow :
    after ((regs 0 1 0).setI 0xFFFF) 0xF11E (fun t => t.status == .faulted .indexOverflow 0xFFFF && t.i == 0xFFFF && t.pc == 0x200) = true := by decide
/-- V-M6, FONT_INDEX_MODE = full. -/
theorem test_ldF_full :
    after (regs 0 0 0x1A) 0xF229 (fun t => t.i == 130) = true := by decide
/-- V-M6, FONT_INDEX_MODE = low_nibble. -/
theorem test_ldF_low_nibble :
    after (otherModes (regs 0 0 0x1A)) 0xF229 (fun t => t.i == 50) = true := by decide
/-- V-M9. -/
theorem test_ldB_top_of_memory :
    after ((regs 42 0 0).setI 0xFFD) 0xF033 (fun t => t.read8 0xFFD == 0 && t.read8 0xFFE == 4 && t.read8 0xFFF == 2 && t.i == 0xFFD) = true := by decide
/-- V-M10. -/
theorem test_ldB_fault :
    after ((regs 42 0 0).setI 0xFFE) 0xF033 (fun t => t.status == .faulted .memoryOutOfBounds 0xFFE && t.read8 0xFFE == 0 && t.read8 0xFFF == 0) = true := by decide
/-- V-M11, LOADSTORE_I_MODE = increment. -/
theorem test_ldMemVx :
    after (otherModes ((regs 1 2 3).setI 0x400)) 0xF255 (fun t => t.read8 0x400 == 1 && t.read8 0x401 == 2 && t.read8 0x402 == 3 && t.read8 0x403 == 0 && t.i == 0x403) = true := by decide
/-- V-M13. -/
theorem test_ldMemVx_fault :
    after ((regs 1 2 3).setI 0xFFF) 0xF155 (fun t => t.status == .faulted .memoryOutOfBounds 0xFFF && t.read8 0xFFF == 0) = true := by decide
/-- V-M14, LOADSTORE_I_MODE = unchanged. -/
theorem test_ldVxMem :
    after (((State.reset.setV 3 0x55).setI 0x400).writeBytes 0x400 [9, 8, 7, 6]) 0xF265 (fun t => t.reg 0 == 9 && t.reg 1 == 8 && t.reg 2 == 7 && t.reg 3 == 0x55 && t.i == 0x400) = true := by decide
/-- V-M17. -/
theorem test_ldVxMem_font :
    after State.reset 0xF465 (fun t => t.reg 0 == 0xF0 && t.reg 1 == 0x90 && t.reg 4 == 0xF0) = true := by decide
/-- V-D1 (seven of its pixels), V-D2, V-D5, V-D7. -/
theorem test_drw_pixels :
    after (State.reset.setI 50) 0xD125 (fun t => t.fb.pixel 3 0 && t.fb.pixel 0 1 && !t.fb.pixel 1 1 && !t.fb.pixel 4 0 &&
      t.fb.pixel 2 2 && !t.fb.pixel 1 4 && t.reg 15 == 0 && t.redraw) = true ∧
    after (((regs 0 60 0).setI 0x300).write8 0x300 0xFF) 0xD121 (fun t => t.fb.pixel 60 0 && t.fb.pixel 63 0 &&
      !t.fb.pixel 0 0 && !t.fb.pixel 59 0 && t.reg 15 == 0) = true ∧
    after (((State.reset.setI 0x300).write8 0x300 0xC0).setFb (Framebuffer.blank.flip 0 0)) 0xD121
      (fun t => !t.fb.pixel 0 0 && t.fb.pixel 1 0 && t.reg 15 == 1) = true ∧
    after (((regs 0 64 0).setI 0x300).write8 0x300 0xFF) 0xD121
      (fun t => !t.fb.pixel 0 0 && !t.fb.pixel 63 0 && t.reg 15 == 0 && t.redraw) = true := by decide
/-- V-D9, and V-D10 at I = 0xFFFF. -/
theorem test_drw_range :
    after ((regs 0 0 31).setI 0xFFE) 0xD123 (fun t => t.status == .faulted .memoryOutOfBounds 0xFFE && !t.redraw) = true ∧
    after ((State.reset.setI 0xFFFF).setV 15 1) 0xD120 (fun t => t.reg 15 == 0 && t.redraw && t.pc == 0x202) = true := by decide
/-- V-D12. -/
theorem test_cls :
    after (State.reset.setFb (Framebuffer.blank.flip 5 6)) 0x03E0 (fun t => !t.fb.pixel 5 6 && t.redraw) = true := by decide
/-- V-T1. -/
theorem test_ldVxDt :
    after (State.reset.setDt 10) 0xF307 (fun t => t.reg 3 == 10 && t.dt == 9) = true := by decide
/-- V-T3. -/
theorem test_ldDtVx :
    after (regs 60 0 0) 0xF015 (fun t => t.dt == 59) = true := by decide
/-- V-T6. -/
theorem test_ldStVx_one :
    after (regs 1 0 0) 0xF018 (fun t => t.st == 0 && t.events == [.toneStart, .toneRestart]) = true := by decide
/-- V-T7. -/
theorem test_ldStVx_zero :
    after ((regs 0 0 0).setSt 4) 0xF018 (fun t => t.st == 0 && t.events == []) = true := by decide
/-- V-T8. -/
theorem test_ldVxK_waits :
    after ((State.reset.setPc 0x240).setDt 2) 0xF50A (fun t => t.pc == 0x240 && t.dt == 1 && t.reg 5 == 0) = true := by decide
/-- V-T9. -/
theorem test_ldVxK_takes_key :
    after ((State.reset.setPc 0x240).setKey (some 0xC)) 0xF50A (fun t => t.reg 5 == 0xC && t.pc == 0x242 && t.key == some 0xC) = true := by decide
/-- V-T11. -/
theorem test_nopf :
    after (regs 0x12 0 0) 0xF075 (fun t => t.pc == 0x202 && t.reg 0 == 0x12) = true := by decide
/-- V-T12. -/
theorem test_nope :
    after State.reset 0xE19F (fun t => t.pc == 0x202) = true := by decide
/-- V-A27. -/
theorem test_nop8 :
    after (regs 0x12 0x34 0) 0x8018 (fun t => t.pc == 0x202 && t.reg 0 == 0x12 && t.reg 15 == 0) = true := by decide
/-- R590. -/
theorem test_sys :
    after State.reset 0x0123 (fun t => t.pc == 0x202 && t.mem == [(0x200, 0x01), (0x201, 0x23)]) = true := by decide

/-! ### Host transactions -/

/-- V-H1. -/
theorem test_reset_from_faulted :
    replied ((((regs 1 2 3).setKey (some 4)).setStatus (.faulted .stackOverflow 0x250)).write8 0x20 7) .reset
      (fun t y => y == .done && t.reg 0 == 0 && t.key == some 4 && t.status == .stopped && t.read8 0 == 0xF0 && t.read8 0x20 == 0xF0) = true := by
  decide
/-- V-H2: the word at 0x202 is 0x5600. -/
theorem test_load_three_bytes :
    replied State.reset (.loadProgram [0x12, 0x34, 0x56])
      (fun t y => y == .loaded && t.mem == [(0x200, 0x12), (0x201, 0x34), (0x202, 0x56)] && (t.setPc 0x202).fetchWord == 0x5600) = true := by
  decide
/-- V-H5. -/
theorem test_reset_while_running : transact .reset (State.reset.setStatus .running) = .refused (.hostDuty "reset") := rfl
/-- R652, R654. -/
theorem test_run_then_pause :
    replied State.reset .run (fun t _ => t.status == .running && replied t .pause (fun u _ => u.status == .paused)) = true := by decide
/-- R653: a step from Stopped is one cycle. -/
theorem test_host_step : replied idle .step (fun t _ => t.reg 10 == 5 && t.status == .stopped) = true := by decide
/-- R654, R655: an engine paused and resumed runs the same instruction it would have run. -/
theorem test_pause_then_resume :
    replied (idle.setStatus .running) .pause (fun t _ => replied t .resume (fun u _ => u == idle.setStatus .running)) = true := by decide
/-- R642. -/
theorem test_observe_redraw :
    replied (State.reset.setRedraw true) .observeRedraw (fun t y => y == .redraw true && t.redraw == false) = true := by decide

/-! ### Witnesses: for each statement with hypotheses, a state and operands that meet them -/

/-- Every row of the map selects its own match and the word with every ignored bit set: a witness of `Selects` and `SelectsElse`. -/
theorem witness_Selects : ∀ r ∈ opcodeRows, r.pattern &&& r.mask = r.pattern ∧ (r.pattern ||| ~~~ r.mask) &&& r.mask = r.pattern := by
  decide

/-- A fallback word of each of the four families of `SelectsElse`. -/
theorem witness_SelectsElse :
    fieldNN 0x0FEF ∉ [0xE0#8, 0xEE#8] ∧ fieldN 0x8008 ∈ [0x8#4, 0x9#4, 0xA#4, 0xB#4, 0xC#4, 0xD#4, 0xF#4] ∧
    fieldNN 0xE09F ∉ [0x9E#8, 0xA1#8] ∧
    fieldNN 0xF008 ∉ [0x07#8, 0x0A#8, 0x15#8, 0x18#8, 0x1E#8, 0x29#8, 0x33#8, 0x55#8, 0x65#8] := by decide

/-- A register other than X, with X other than 15, and X = 15: the frame clauses of the register statements. -/
theorem witness_register_frames : (14 : Reg) ≠ 15 ∧ (0 : Reg) ≠ 14 ∧ (0 : Reg) ≠ 15 := by decide

theorem witness_DecoderConsumesTwoBytes :
    (∃ hi lo rest, [0x12, 0x34] = hi :: lo :: (rest : List Byte)) ∧ [(0x12 : Byte)].length < 2 ∧ ([] : List Byte).length < 2 :=
  ⟨⟨_, _, _, rfl⟩, by decide, by decide⟩

/-- A fallback term at the edge of its family, with every operand at its largest value. -/
theorem witness_DecodeOfEncodeIsIdentity : (Instr.nop8 15 15 0xF).wf = true ∧ (Instr.drw 15 15 15).wf = true := by decide

/-- The last address of a fetch, and the first that faults. -/
theorem witness_FetchIsBigEndianBelowLimit :
    State.reset.status.isFaulted = false ∧ (State.reset.setPc 4093).pc.toNat < 4094 ∧ 4094 ≤ (State.reset.setPc 4094).pc.toNat ∧
    ∃ t, exec (decodeWord ((0x0 : Byte) ++ (0x0 : Byte))) (State.reset.setPc 4093) = .next t ∧ t.status.isFaulted = false :=
  ⟨rfl, by decide, by decide, _, rfl, rfl⟩

theorem witness_StepRunsDecodedInstruction :
    idle.pc.toNat < 4094 ∧ decode [idle.read8 idle.pc.toNat, idle.read8 (idle.pc.toNat + 1)] = .ok (.ldImm 10 5, []) ∧
    idle.status = .stopped ∧ (idle.setStatus .running).status = .running ∧ (idle.setStatus .paused).status = .paused :=
  ⟨by decide, rfl, rfl, rfl, rfl⟩

theorem witness_CommittedCycleCountsTimers :
    ∃ t, exec (decodeWord (State.reset.setSt 1).fetchWord) (State.reset.setSt 1) = .next t ∧ t.status.isFaulted = false ∧ t.st.toNat = 1 :=
  ⟨_, rfl, rfl, rfl⟩

/-- A RET with an empty stack. -/
theorem witness_FaultingCycleCommitsNothing :
    (State.reset.withFetchWord 16 0x00EE).status.isFaulted = false ∧
    ∃ t, cycle (State.reset.withFetchWord 16 0x00EE) = .next t ∧ t.status.isFaulted = true := ⟨rfl, _, rfl, rfl⟩

/-- The premise of FaultConditionRaisesFault, for the word `w` at pc. -/
abbrev FaultsAt (s : State) (w : Nat) (f : FaultCause) (a : Word) : Prop :=
  (s.withFetchWord 16 w).status.isFaulted = false ∧
    (s.withFetchWord 16 w).FaultsWith (decodeWord (s.withFetchWord 16 w).fetchWord) f a

/-- The condition of each of the five faults, at its boundary. -/
theorem witness_FaultConditionRaisesFault :
    FaultsAt (State.reset.setPc 4094) 0 .outOfBoundsFetch 4094 ∧
    FaultsAt (withStack State.reset 0x202 16) 0x2300 .stackOverflow 512 ∧
    FaultsAt State.reset 0x00EE .stackUnderflow 512 ∧
    FaultsAt (State.reset.setI 4096) 0xD001 .memoryOutOfBounds 4096 ∧
    FaultsAt (State.reset.setI 4094) 0xF033 .memoryOutOfBounds 4094 ∧
    FaultsAt (State.reset.setI 4095) 0xF155 .memoryOutOfBounds 4095 ∧
    FaultsAt (State.reset.setI 4095) 0xF165 .memoryOutOfBounds 4095 ∧
    FaultsAt ((State.reset.setI 0xFF01).setV 3 0xFF) 0xF31E .indexOverflow 0xFF01 :=
  ⟨⟨rfl, rfl, by decide⟩, ⟨rfl, rfl, by decide, rfl, _, rfl⟩, ⟨rfl, rfl, by decide, rfl, rfl⟩,
   ⟨rfl, rfl, by decide, .inl ⟨_, _, _, rfl, by decide, by decide⟩⟩,
   ⟨rfl, rfl, by decide, .inr (.inl ⟨_, rfl, by decide⟩)⟩,
   ⟨rfl, rfl, by decide, .inr (.inr ⟨_, .inl rfl, by decide⟩)⟩,
   ⟨rfl, rfl, by decide, .inr (.inr ⟨_, .inr rfl, by decide⟩)⟩,
   ⟨rfl, rfl, by decide, _, rfl, by decide⟩⟩

/-- Each kind of status, a host's step that is a cycle, and a request in Faulted. -/
theorem witness_CyclesHappenOnlyWhereAllowed :
    (idle.setStatus .running).status = .running ∧ idle.status ≠ .running ∧ idle.status = .stopped ∧
    (idle.setStatus .paused).status = .paused ∧ (∃ t, transact .step idle = .next (t, .done)) ∧
    (idle.setStatus (.faulted .stackUnderflow 512)).status.isFaulted = true ∧ Request.run ≠ .reset ∧
    ∃ t y, transact .run (idle.setStatus (.faulted .stackUnderflow 512)) = .next (t, y) :=
  ⟨rfl, nofun, rfl, rfl, ⟨_, rfl⟩, rfl, nofun, _, _, rfl⟩

/-- One committed cycle for each of the six ends of R411. -/
theorem witness_PcAfterCommittedCycle :
    after (withStack State.reset 0x202 1) 0x00EE (fun t => !t.status.isFaulted && t.pc == 0x202) = true ∧
    after State.reset 0x2FFF (fun t => !t.status.isFaulted && t.pc == 0xFFF) = true ∧
    after (regs 0xFF 0 0) 0xBFFF (fun t => !t.status.isFaulted && t.pc == 4350) = true ∧
    after State.reset 0x3000 (fun t => !t.status.isFaulted && t.pc == 0x204) = true ∧
    after State.reset 0xF00A (fun t => !t.status.isFaulted && t.pc == 0x200) = true ∧
    after State.reset 0x0000 (fun t => !t.status.isFaulted && t.pc == 0x202) = true := by decide

theorem witness_JumpGoesToAddress :
    State.reset.status.isFaulted = false ∧ 4094 ≤ (0xFFE : Addr12).toNat ∧ (0x200 : Addr12).toNat = State.reset.pc.toNat := by decide

theorem witness_CallPushesReturnAddress :
    (withStack State.reset 0x202 15).sp.val < 16 ∧ (withStack State.reset 0x202 16).sp.val = 16 := by decide

theorem witness_ReturnPopsSavedAddress :
    0 < (withStack State.reset 0x202 16).sp.val ∧ (withStack State.reset 0x202 16).stack[15] = some 0x202 ∧ State.reset.sp.val = 0 ∧
    0 < (State.reset.setStack State.reset.stack 1).sp.val ∧ (State.reset.setStack State.reset.stack 1).stack[0] = none := by decide

theorem witness_CallThenReturnComesBack : (withStack State.reset 0x202 15).sp.val < 16 := by decide

/-- A key that V[X] names; an empty latch, and a V[X] of 16 that no key is. -/
theorem witness_SkipOnKeyLatch :
    (∃ k, ((regs 0 0 5).setKey (some 5)).key = some k ∧ k.toNat = ((regs 0 0 5).reg 2).toNat) ∧
    (∀ k, (regs 0 0 0).key = some k → k.toNat ≠ ((regs 0 0 0).reg 2).toNat) ∧
    (∀ k, ((regs 0 0 16).setKey (some 0)).key = some k → k.toNat ≠ ((regs 0 0 16).reg 2).toNat) :=
  ⟨⟨5, rfl, by decide⟩, (fun _ h => nomatch h), fun k h => by have : k = 0 := (Option.some.inj h).symm; subst this; decide⟩

/-- Each of the four instructions with its function. -/
theorem witness_CopyAndLogicWriteNoFlag (x y : Reg) :
    ∀ i ∈ [(Instr.ldReg x y, (fun _ b => b : Bool → Bool → Bool)), (.orReg x y, or), (.andReg x y, and), (.xorReg x y, xor)],
      (i.1 = .ldReg x y ∧ i.2 = (fun _ b => b)) ∨ (i.1 = .orReg x y ∧ i.2 = or) ∨ (i.1 = .andReg x y ∧ i.2 = and) ∨
        (i.1 = .xorReg x y ∧ i.2 = xor) := by
  simp

/-- Both differences, at a = b and at a < b. -/
theorem witness_SubtractSetsNoBorrow :
    (Instr.subReg 0 1 = .subReg 0 1 ∧ 9 = ((regs 9 9 0).reg 0).toNat ∧ 9 = ((regs 9 9 0).reg 1).toNat) ∧
    (Instr.subn 0 1 = .subn 0 1 ∧ 5 = ((regs 7 5 0).reg 1).toNat ∧ 7 = ((regs 7 5 0).reg 0).toNat) := by decide

theorem witness_ShiftsSetShiftedOutBit :
    ((regs 4 3 0).config.shiftSource = .vx ∧ 4 = ((regs 4 3 0).reg 0).toNat) ∧
    ((otherModes (regs 4 3 0)).config.shiftSource = .vy ∧ 3 = ((otherModes (regs 4 3 0)).reg 1).toNat) := by decide

/-- The two sides of the limit of FX1E. -/
theorem witness_AddToIndex :
    ((regs 0 0xFF 0).setI 0xFF00).i.toNat + ((regs 0 0xFF 0).reg 1).toNat ≤ 0xFFFF ∧
    0xFFFF < ((regs 0 0xFF 0).setI 0xFF01).i.toNat + ((regs 0 0xFF 0).reg 1).toNat := by decide

theorem witness_FontIndexInBothModes :
    State.reset.config.fontIndexMode = .full ∧ (otherModes State.reset).config.fontIndexMode = .lowNibble ∧
    ((regs 0 0 15).reg 2).toNat ≤ 15 := by decide

/-- The last range that fits, for each of the transfers, over a memory that is not empty. -/
theorem witness_transfers_fit :
    Memory.wf State.reset.config.fontData [(0, 1), (4095, 7)] ∧ (State.reset.setI 4093).i.toNat + 2 < 4096 ∧
    (State.reset.setI 4080).i.toNat + (15 : Reg).val < 4096 ∧ State.reset.config.loadStoreIMode = .unchanged ∧
    (otherModes State.reset).config.loadStoreIMode = .increment := by decide

/-- The first range that does not fit, for each of the transfers. -/
theorem witness_AccessBeyondMemoryFaults :
    1 ≤ (1 : Nibble).toNat ∧ 4096 ≤ (State.reset.setI 4096).i.toNat + (1 : Nibble).toNat - 1 ∧
    4096 ≤ (State.reset.setI 4094).i.toNat + 2 ∧ 4096 ≤ (State.reset.setI 4095).i.toNat + (1 : Reg).val := by decide

theorem witness_StoredRegistersAreFetched :
    Memory.wf State.reset.config.fontData (State.reset.setI 514).mem ∧ (State.reset.setI 514).i.toNat + (1 : Reg).val < 4096 ∧
    (0 : Reg).val + 1 ≤ (1 : Reg).val ∧ ((State.reset.setI 514).pc + 2).toNat = (State.reset.setI 514).i.toNat + (0 : Reg).val := by
  decide

/-- No row at any I, and the last range of rows that fits; then a sprite over a lit pixel, and one over none. -/
theorem witness_DrawFlipsCoveredPixels :
    ((0 : Nibble).toNat = 0 ∨ (State.reset.setI 0xFFFF).i.toNat + (0 : Nibble).toNat - 1 < 4096) ∧
    (State.reset.setI 4081).i.toNat + (15 : Nibble).toNat - 1 < 4096 ∧
    (State.reset.setFb (Framebuffer.blank.flip 0 0)).spriteCovers 0 0 1 0 0 = true ∧
    (State.reset.setFb (Framebuffer.blank.flip 0 0)).fb.pixel 0 0 = true ∧
    (∀ p q, p < 64 → q < 32 → State.reset.spriteCovers 0 0 1 p q = true → State.reset.fb.pixel p q = false) :=
  ⟨.inl rfl, by decide, by decide, by decide, fun p q _ _ _ => by simp [State.reset, Framebuffer.pixel]⟩

theorem witness_DrawTwiceRestoresFramebuffer :
    (14 : Reg) ≠ 15 ∧ (0 : Reg) ≠ 15 ∧ ((5 : Nibble).toNat = 0 ∨ State.reset.i.toNat + (5 : Nibble).toNat - 1 < 4096) := by decide

theorem witness_timer_instructions :
    (regs 1 0 0).status.isFaulted = false ∧ (regs 1 0 0).pc.toNat < 4094 ∧ ((regs 1 0 0).reg 0).toNat = 1 ∧
    decodeWord ((regs 1 0 0).withFetchWord 16 0xF007).fetchWord = .ldVxDt 0 ∧
    decodeWord ((regs 1 0 0).withFetchWord 16 0xF015).fetchWord = .ldDtVx 0 ∧
    decodeWord ((regs 1 0 0).withFetchWord 16 0xF018).fetchWord = .ldStVx 0 := by decide

theorem witness_WaitForKey : State.reset.key = none ∧ (State.reset.setKey (some 0xC)).key = some 0xC := by decide

theorem witness_NoOpsOnlyAdvance (i : Instr) (h : i ∈ [Instr.sys 0, .nop8 1 2 8, .nope 3 0, .nopf 4 0]) :
    (∃ nnn, i = .sys nnn) ∨ (∃ x y n, i = .nop8 x y n) ∨ (∃ x nn, i = .nope x nn) ∨ (∃ x nn, i = .nopf x nn) := by
  simp at h
  rcases h with rfl | rfl | rfl | rfl <;> simp

theorem witness_OnlyDestinationRegistersChange :
    (∃ t, exec (.addReg 3 4) State.reset = .next t) ∧ (Instr.addReg 3 4).writesReg 5 = false ∧ (Instr.addReg 3 4).writesReg 15 = true :=
  ⟨⟨_, rfl⟩, by decide, by decide⟩

/-- CLS meets the premise of every clause. -/
theorem witness_OnlyNamedInstructionsChangeSpecialState :
    (∃ t, exec .cls State.reset = .next t) ∧ (∀ nnn, Instr.cls ≠ .ldI nnn) ∧
    (∀ x, Instr.cls ≠ .addI x ∧ Instr.cls ≠ .ldF x ∧ Instr.cls ≠ .ldMemVx x ∧ Instr.cls ≠ .ldVxMem x) ∧
    (∀ nnn, Instr.cls ≠ .call nnn) ∧ Instr.cls ≠ .ret ∧ (∀ x, Instr.cls ≠ .ldDtVx x) ∧ (∀ x, Instr.cls ≠ .ldStVx x) ∧
    (∀ x nn, Instr.cls ≠ .rnd x nn) ∧ (∀ x, Instr.cls ≠ .ldB x ∧ Instr.cls ≠ .ldMemVx x) :=
  ⟨⟨_, rfl⟩, nofun, fun _ => ⟨nofun, nofun, nofun, nofun⟩, nofun, nofun, nofun, nofun, nofun, fun _ => ⟨nofun, nofun⟩⟩

theorem witness_NoInstructionWritesHostSide :
    (∃ t, exec (.jp 0x300) (State.reset.setRedraw true) = .next t) ∧ (State.reset.setRedraw true).redraw = true := ⟨⟨_, rfl⟩, rfl⟩

theorem witness_OnlyDisplayInstructionsDraw :
    (∃ t, exec .ret (withStack State.reset 0x202 1) = .next t) ∧ Instr.ret ≠ .cls ∧ (∀ x y n, Instr.ret ≠ .drw x y n) ∧
    (∃ t y, transact .run State.reset = .next (t, y)) ∧ Request.run ≠ .reset ∧ Request.run ≠ .step :=
  ⟨⟨_, rfl⟩, nofun, nofun, ⟨_, _, rfl⟩, nofun, nofun⟩

/-- For each of the two clauses of the premise, an instruction that runs. -/
theorem witness_PixelsAreObservedOnlyThroughVF :
    (∃ t, exec (.ldB 0) State.reset = .next t) ∧ (∀ x y n, Instr.ldB 0 ≠ .drw x y n) ∧
    (∃ t, exec (.drw 0 0 0) State.reset = .next t) := ⟨⟨_, rfl⟩, nofun, ⟨_, rfl⟩⟩

theorem witness_NoInstructionReadsSoundRedrawEvents : ∃ t, exec (.ldStVx 0) (regs 3 0 0) = .next t := ⟨_, rfl⟩

/-- V-C2, and the good end that a run from there comes to in its first cycle. -/
theorem witness_TerminalLoopStaysPut :
    (State.reset.withFetchWord 16 0x1200).atTerminalLoop = true ∧ ∃ t, EndsAt (State.reset.withFetchWord 16 0x1200) .terminalLoop t :=
  ⟨by decide, _, .terminalLoop .start (by decide) (.inl ⟨rfl, rfl⟩)⟩

/-- The other two ends: a RET with an empty stack, and a stop while Running. -/
theorem witness_EndsAt :
    (∃ t, EndsAt (State.reset.withFetchWord 16 0x00EE) .faulted t) ∧ (∃ t, EndsAt (idle.setStatus .running) .stopped t) :=
  ⟨⟨_, .faulted .start (.inl ⟨rfl, rfl⟩) rfl⟩, ⟨_, .stopped .start (.inl rfl) rfl⟩⟩

/-- The invariant at reset. -/
theorem reset_inv : State.reset.Inv :=
  ⟨Memory.wf_nil _, fun _ h => absurd h (Nat.not_lt_zero _), fun _ _ h => by simp [State.reset] at h, by decide⟩

/-- The invariant at its bounds: a full stack of the largest saved address, the largest pc. -/
theorem witness_StepKeepsInvariant :
    State.Inv (((withStack State.reset 4095 16).setPc 4350).setStatus .running) ∧
    ∃ t, step (((withStack State.reset 4095 16).setPc 4350).setStatus .running) = .next t ∧ t.status.isFaulted = true :=
  ⟨⟨Memory.wf_nil _, fun _ _ => by simp [withStack], fun j w h => by simp [withStack] at h; subst h; decide, by decide⟩, _, rfl, rfl⟩

theorem witness_HostRequestsKeepInvariant :
    State.reset.Inv ∧ ∃ t y, transact (.loadProgram [0x12, 0x00]) State.reset = .next (t, y) := ⟨reset_inv, _, _, rfl⟩

/-- Reset, and the state after a load, are reachable. -/
theorem witness_ReachableStatesHaveInvariant :
    Reachable State.reset ∧ ∃ t y, transact (.loadProgram [0x12, 0x00]) State.reset = .next (t, y) ∧ Reachable t := by
  have h : Reachable State.reset := .start Config.default none 0
  exact ⟨h, _, _, rfl, .host (.loadProgram [0x12, 0x00]) _ h rfl⟩

theorem witness_EveryStepHasNextState : State.reset.Inv := reset_inv

theorem witness_ResetEntersAt512 : ∃ t y, transact .reset State.reset = .next (t, y) := ⟨_, _, rfl⟩

/-- Each of the four kinds of status. -/
theorem witness_statuses :
    State.reset.status = .stopped ∧ (State.reset.setStatus (.faulted .indexOverflow 0xFFFF)).status.isFaulted = true ∧
    (State.reset.setStatus .running).status = .running ∧ (State.reset.setStatus .paused).status = .paused ∧
    (State.reset.setStatus .paused).status ≠ .running ∧ (State.reset.setStatus .running).status ≠ .stopped ∧
    State.reset.status ≠ .running ∧ State.reset.status ≠ .paused := by decide

/-- The longest program that fits, and the shortest that does not. -/
theorem witness_LoadPlacesProgram :
    Memory.wf State.reset.config.fontData State.reset.mem ∧ (List.replicate 3584 (0 : Byte)).length ≤ 3584 ∧
    3584 < (List.replicate 3585 (0 : Byte)).length :=
  ⟨Memory.wf_nil _, by rw [List.length_replicate], by rw [List.length_replicate]; decide⟩

end Sys2Proof.Tests
end

section
/-! PROOFS. What an instruction with more than one path can leave, said once for each; then the framebuffer's frame
(spec/10_state.md R118). -/

namespace Sys2Proof.Machine

variable {s t : State} {x : Reg} {nnn : Addr12}

/-! ### The paths of an instruction -/

/-- A meaning with two paths answers the state of one of them, under its guard. -/
theorem ite_next_cases {c : Prop} [Decidable c] {u u' : State}
    (h : (if c then .next u else .next u' : Host.Outcome State Fault Refusal) = .next t) : (c ∧ t = u) ∨ (¬ c ∧ t = u') := by
  split at h <;> rename_i hc <;> injection h with h
  · exact .inl ⟨hc, h.symm⟩
  · exact .inr ⟨hc, h.symm⟩

/-- R420: a RET underflows, or goes to the address in the slot below sp. -/
theorem execRet_cases (h : execRet s = .next t) :
    (s.sp.val = 0 ∧ t = s.raise .stackUnderflow s.pc) ∨
    ∃ (hs : 0 < s.sp.val) (w : Word), s.stack[s.sp.val - 1] = some w ∧
      t = (s.setStack s.stack ⟨s.sp.val - 1, by omega⟩).setPc w := by
  unfold execRet at h
  cases hp : s.advance.pop with
  | none => rw [hp] at h; injection h with h; exact .inl ⟨(State.pop_eq_none (s := s.advance)).mp hp, h.symm⟩
  | some p =>
    obtain ⟨_ | w, u⟩ := p <;> rw [hp] at h
    · cases h
    · obtain ⟨hs, hw, rfl⟩ := State.pop_eq_some hp
      injection h with h
      exact .inr ⟨hs, w, hw.symm, h.symm⟩

/-- R422: a CALL overflows, or pushes the address after it and goes to NNN. -/
theorem execCall_cases (h : execCall nnn s = .next t) :
    (s.sp.val = 16 ∧ t = s.raise .stackOverflow s.pc) ∨
    ∃ hs : s.sp.val < 16, t = (s.setStack (s.stack.set s.sp.val (some (s.pc + 2))) ⟨s.sp.val + 1, by omega⟩).setPc
      (absoluteAddress nnn) := by
  unfold execCall at h
  cases hp : s.advance.push s.advance.pc with
  | none => rw [hp] at h; injection h with h; exact .inl ⟨(State.push_eq_none (s := s.advance)).mp hp, h.symm⟩
  | some u =>
    rw [hp] at h
    obtain ⟨hs, rfl⟩ := State.push_eq_some hp
    injection h with h
    exact .inr ⟨hs, h.symm⟩

/-- R501: an ADD I, VX overflows I, or puts the sum into it. -/
theorem execAddI_cases (h : execAddI x s = .next t) :
    (0xFFFF < s.indexSum x ∧ t = s.raise .indexOverflow s.i) ∨
    (¬ 0xFFFF < s.indexSum x ∧ t = s.advance.setI (BitVec.ofNat 16 (s.indexSum x))) :=
  ite_next_cases h

/-- R503: an LD B, VX stores the three digits, or reaches beyond memory. -/
theorem execLdB_cases (h : execLdB x s = .next t) :
    (s.accessFits 3 ∧ t = s.advance.writeBytes s.i.toNat (bcdDigits (s.reg x))) ∨
    (¬ s.accessFits 3 ∧ t = s.raise .memoryOutOfBounds s.i) :=
  ite_next_cases h

/-- R504: an LD [I], VX stores V[0..X] and then writes I, or reaches beyond memory. -/
theorem execLdMemVx_cases (h : execLdMemVx x s = .next t) :
    (s.accessFits (x.val + 1) ∧ t = (s.advance.writeBytes s.i.toNat (s.regsUpTo x)).setI (s.indexAfterTransfer x)) ∨
    (¬ s.accessFits (x.val + 1) ∧ t = s.raise .memoryOutOfBounds s.i) :=
  ite_next_cases h

/-- R505: an LD VX, [I] loads V[0..X] and then writes I, or reaches beyond memory. -/
theorem execLdVxMem_cases (h : execLdVxMem x s = .next t) :
    (s.accessFits (x.val + 1) ∧ t = (s.advance.setRegs (s.regsLoaded x)).setI (s.indexAfterTransfer x)) ∨
    (¬ s.accessFits (x.val + 1) ∧ t = s.raise .memoryOutOfBounds s.i) :=
  ite_next_cases h

/-- R561: an LD VX, K waits at its own address, or stores the key. -/
theorem execLdVxK_cases (h : execLdVxK x s = .next t) :
    (s.key = none ∧ t = s.advance.setPc (s.advance.pc - 2)) ∨
    ∃ k, s.key = some k ∧ t = s.advance.setV x (k.setWidth 8) := by
  unfold execLdVxK at h
  cases hk : s.key with
  | none => rw [hk] at h; injection h with h; exact .inl ⟨rfl, h.symm⟩
  | some k => rw [hk] at h; injection h with h; exact .inr ⟨k, rfl, h.symm⟩

/-- R563: an LD ST, VX sets st, and emits ToneStart unless it sets it to 0. -/
theorem execLdStVx_cases (h : execLdStVx x s = .next t) :
    (s.reg x = 0 ∧ t = s.advance.setSt (s.reg x)) ∨
    (¬ s.reg x = 0 ∧ t = (s.advance.setSt (s.reg x)).emit .toneStart) :=
  ite_next_cases h

/-- R701, R704: a load that is allowed is too long and changes nothing, or stores the program from 512 up. -/
theorem hostLoadProgram_cases {bytes : List Byte} {y : Reply} (h : hostLoadProgram bytes s = .next (t, y)) :
    s.status.allowsLoad ∧
      ((programMax < bytes.length ∧ t = s ∧ y = .loadError) ∨
       (¬ programMax < bytes.length ∧ t = s.writeBytes programOrigin bytes ∧ y = .loaded)) := by
  unfold hostLoadProgram at h
  split at h
  · rename_i ha
    split at h <;> rename_i hl <;> cases h
    · exact ⟨ha, .inl ⟨hl, rfl, rfl⟩⟩
    · exact ⟨ha, .inr ⟨hl, rfl, rfl⟩⟩
  · cases h

/-! ### The framebuffer under the operations that do not draw -/

variable (s)

@[simp] theorem State.advance_fb : s.advance.fb = s.fb := rfl
@[simp] theorem State.raise_fb (f : FaultCause) (a : Word) : (s.raise f a).fb = s.fb := rfl

@[simp] theorem State.writeBytes_fb (a : Nat) (bs : List Byte) : (s.writeBytes a bs).fb = s.fb := by
  rw [State.writeBytes_setMem, State.setMem_fb]

/-- A change of status under a condition, which is what run, pause, resume and stop make. -/
@[simp] theorem ite_setStatus_fb (c : Prop) [Decidable c] (x : Status) : (if c then s.setStatus x else s).fb = s.fb := by
  split <;> rfl

variable {s}

/-- R118: an instruction other than CLS and DRW leaves the framebuffer, on each of its paths. -/
theorem exec_fb {i : Instr} (h : exec i s = .next t) (hcls : i ≠ .cls) (hdrw : ∀ x y n, i ≠ .drw x y n) : t.fb = s.fb := by
  cases i with
  | cls => exact absurd rfl hcls
  | drw x y n => exact absurd rfl (hdrw x y n)
  | sys | nop8 | nope | nopf | jp | jpV0 | ldI | ldF | ldVxDt | ldDtVx => cases h; rfl
  | ldImm | addImm | ldReg | orReg | andReg | xorReg | addReg | subReg | shr | subn | shl | rnd => cases h; rfl
  | seImm | sneImm | seReg | sneReg | skp | sknp => cases h; simp
  | ret => obtain ⟨-, rfl⟩ | ⟨_, _, -, rfl⟩ := execRet_cases h <;> rfl
  | call => obtain ⟨-, rfl⟩ | ⟨_, rfl⟩ := execCall_cases h <;> rfl
  | addI => obtain ⟨-, rfl⟩ | ⟨-, rfl⟩ := execAddI_cases h <;> rfl
  | ldB => obtain ⟨-, rfl⟩ | ⟨-, rfl⟩ := execLdB_cases h <;> simp
  | ldMemVx => obtain ⟨-, rfl⟩ | ⟨-, rfl⟩ := execLdMemVx_cases h <;> simp
  | ldVxMem => obtain ⟨-, rfl⟩ | ⟨-, rfl⟩ := execLdVxMem_cases h <;> rfl
  | ldVxK => obtain ⟨-, rfl⟩ | ⟨_, -, rfl⟩ := execLdVxK_cases h <;> rfl
  | ldStVx => obtain ⟨-, rfl⟩ | ⟨-, rfl⟩ := execLdStVx_cases h <;> rfl

/-- R118, R641: of the host's requests only reset and step() can change the framebuffer. -/
theorem transact_fb {r : Request} {y : Reply} (h : transact r s = .next (t, y)) (hreset : r ≠ .reset) (hstep : r ≠ .step) :
    t.fb = s.fb := by
  cases r with
  | reset => exact absurd rfl hreset
  | step => exact absurd rfl hstep
  | setKey | clearKey | readFramebuffer | observeRedraw | readEvents | readStatus => cases h; rfl
  | run | pause | resume | stop => cases h; exact ite_setStatus_fb ..
  | loadProgram => obtain ⟨-, ⟨-, rfl, -⟩ | ⟨-, rfl, -⟩⟩ := hostLoadProgram_cases h <;> simp

/-- Settles O48, by the frame of each instruction and of each request; the host's read is its own definition. -/
theorem onlyDisplayInstructionsDraw : Obligations.OnlyDisplayInstructionsDraw :=
  ⟨fun _ _ _ => exec_fb, fun _ => rfl, fun _ _ _ _ => transact_fb⟩

end Sys2Proof.Machine
end

section
/-! PROOFS. A field of a word as shift and mask, and what the decoder makes of a list of bytes (spec/30_encoding.md R300, R301). -/

namespace Sys2Proof

/-! ### Fields by shift and mask (R301) -/

/-- Bit `i` of both sides is bit `start + i` of the word below `len`, and 0 from there on. -/
theorem setWidth_extractLsb'_eq_shift_and_mask (w : Word) (start len : Nat) :
    (w.extractLsb' start len).setWidth 16 = (w >>> start) &&& BitVec.ofNat 16 (2 ^ len - 1) := by
  apply BitVec.eq_of_getLsbD_eq
  intro i hi
  simp only [BitVec.getLsbD_setWidth, BitVec.getLsbD_extractLsb', BitVec.getLsbD_and, BitVec.getLsbD_ushiftRight,
    BitVec.getLsbD_ofNat, Nat.testBit_two_pow_sub_one, hi, decide_true, Bool.true_and]
  exact Bool.and_comm ..

/-- The fields at bit 0 need no shift. -/
theorem setWidth_extractLsb'_zero_eq_mask (w : Word) (len : Nat) :
    (w.extractLsb' 0 len).setWidth 16 = w &&& BitVec.ofNat 16 (2 ^ len - 1) := by
  rw [setWidth_extractLsb'_eq_shift_and_mask, BitVec.ushiftRight_zero]

/-- Settles O1: each field is one range of bits, read by the one law of shift and mask. -/
theorem fieldsAreShiftedMaskedBits : Obligations.FieldsAreShiftedMaskedBits := fun w =>
  ⟨setWidth_extractLsb'_eq_shift_and_mask w 12 4, setWidth_extractLsb'_eq_shift_and_mask w 8 4,
   setWidth_extractLsb'_eq_shift_and_mask w 4 4, setWidth_extractLsb'_zero_eq_mask w 4,
   setWidth_extractLsb'_zero_eq_mask w 8, setWidth_extractLsb'_zero_eq_mask w 12⟩

/-! ### The bytes of an instruction (R300) -/

@[simp] theorem decode_cons_cons (hi lo : Byte) (rest : List Byte) :
    decode (hi :: lo :: rest) = .ok (decodeWord (wordOfBytes hi lo), rest) := rfl

theorem decode_of_length_lt_two {bytes : List Byte} (h : bytes.length < 2) : decode bytes = .error .truncated := by
  match bytes with
  | [] | [_] => rfl
  | _ :: _ :: _ => simp only [List.length_cons] at h; omega

/-- Settles O2, by the length of the list: two bytes or more, or fewer. -/
theorem decoderConsumesTwoBytes : Obligations.DecoderConsumesTwoBytes := by
  refine fun bytes => ⟨?_, decode_of_length_lt_two⟩
  rintro hi lo rest rfl
  exact decode_cons_cons hi lo rest

end Sys2Proof
end

section
/-! PROOFS. The fetch and the countdown of one cycle (spec/40_cycle.md R401, R402, R406, R407). -/

namespace Sys2Proof.Machine

variable {s t : State}

/-! ### The bits of a fetched word (R402) -/

theorem wordOfBytes_getLsbD_high (hi lo : Byte) (k : Nat) : (wordOfBytes hi lo).getLsbD (8 + k) = hi.getLsbD k :=
  BitVec.getLsbD_append.trans (by simp)

theorem wordOfBytes_getLsbD_low (hi lo : Byte) {k : Nat} (h : k < 8) : (wordOfBytes hi lo).getLsbD k = lo.getLsbD k :=
  BitVec.getLsbD_append.trans (if_pos h)

/-! ### A cycle whose instruction runs without fault, and one that raises at the fetch -/

theorem State.endCycle_of_not_isFaulted (h : t.status.isFaulted = false) : t.endCycle = t.countTimers := by
  rw [State.endCycle, h]
  rfl

/-- R401, R406, R407: below the fetch limit, an instruction that runs without fault is followed by the countdown. -/
theorem cycle_of_exec_committed (hp : s.pc.toNat < 4094) (he : exec (decodeWord s.fetchWord) s = .next t)
    (ht : t.status.isFaulted = false) : cycle s = .next t.countTimers := by
  rw [cycle_exec hp, he]
  exact congrArg _ (State.endCycle_of_not_isFaulted ht)

theorem cycle_of_fetch_beyond_limit (hp : 4094 ≤ s.pc.toNat) : cycle s = .next (s.raise .outOfBoundsFetch s.pc) := by
  rw [cycle_eq, if_pos hp]

/-- Settles O7, by the two sides of the fetch check; the word is the two bytes at pc, the high byte first. -/
theorem fetchIsBigEndianBelowLimit : Obligations.FetchIsBigEndianBelowLimit := by
  refine fun s _ => ⟨fun hp => ⟨s.fetchWord, fun k hk => ⟨?_, ?_⟩, fun t => cycle_of_exec_committed hp⟩,
    cycle_of_fetch_beyond_limit⟩
  · exact wordOfBytes_getLsbD_high _ _ k
  · exact wordOfBytes_getLsbD_low _ _ hk

/-- Settles O9: the cycle is the instruction and the countdown, which is an update of the timers and the events. -/
theorem committedCycleCountsTimers : Obligations.CommittedCycleCountsTimers := by
  intro s t _ hp he ht
  refine ⟨_, _, countdown_toNat t.dt, countdown_toNat t.st, ?_⟩
  have hone : t.st = 1 ↔ t.st.toNat = 1 := BitVec.toNat_inj.symm
  rw [cycle_of_exec_committed hp he ht, State.countTimers_def]
  simp only [hone]
  rfl

end Sys2Proof.Machine
end

section
/-! PROOFS. JP NNN (spec/41_control_transfer.md R421). -/

namespace Sys2Proof.Machine

/-- R304: zero extension keeps the number. -/
@[simp] theorem absoluteAddress_toNat (nnn : Addr12) : (absoluteAddress nnn).toNat = nnn.toNat :=
  BitVec.toNat_setWidth_of_le (by decide)

/-- R421: pc is the only effect of a jump; the advance before it leaves no trace. -/
theorem exec_jp (nnn : Addr12) (s : State) : exec (.jp nnn) s = .next (s.setPc (absoluteAddress nnn)) := rfl

/-- R714: a jump to its own address is the terminal loop. -/
theorem exec_jp_self {nnn : Addr12} {s : State} (h : nnn.toNat = s.pc.toNat) : exec (.jp nnn) s = .next s := by
  have hpc : absoluteAddress nnn = s.pc := BitVec.eq_of_toNat_eq ((absoluteAddress_toNat nnn).trans h)
  rw [exec_jp, hpc]
  rfl

/-- Settles O14, with the address itself as the new pc; the fault is the fetch check of the cycle that starts there. -/
theorem jumpGoesToAddress : Obligations.JumpGoesToAddress := by
  refine ⟨fun _ => decodeWord_jp, fun nnn s =>
    ⟨absoluteAddress nnn, absoluteAddress_toNat nnn, exec_jp nnn s, exec_jp_self, fun _ hlimit => ?_⟩⟩
  have hfetch : 4094 ≤ (s.setPc (absoluteAddress nnn)).pc.toNat := by
    rwa [State.setPc_pc, absoluteAddress_toNat]
  exact cycle_of_fetch_beyond_limit hfetch

end Sys2Proof.Machine
end

section
/-! PROOFS. The conditional skips (spec/42_skips.md R440 to R442). -/

namespace Sys2Proof.Machine

/-- R410: a skip on top of the advance is one update of pc, to p + 4 or p + 2. -/
theorem State.advance_skipIf (s : State) (c : Bool) :
    s.advance.skipIf c = s.setPc (if c then s.pc + 4 else s.pc + 2) := by
  cases c with
  | false => rfl
  | true =>
    have hpc : s.pc + 2 + 2 = s.pc + 4 := BitVec.add_assoc ..
    exact congrArg s.setPc hpc

/-- R440: the skips compare unsigned numbers. -/
theorem Byte.beq_iff_toNat_eq (a b : Byte) : (a == b) = true ↔ a.toNat = b.toNat :=
  beq_iff_eq.trans BitVec.toNat_inj.symm

theorem exec_seImm (x : Reg) (nn : Byte) (s : State) :
    exec (.seImm x nn) s = .next (s.setPc (if (s.reg x).toNat = nn.toNat then s.pc + 4 else s.pc + 2)) := by
  change Host.Outcome.next (s.advance.skipIf (s.reg x == nn)) = _
  simp only [State.advance_skipIf, Byte.beq_iff_toNat_eq]

theorem exec_sneImm (x : Reg) (nn : Byte) (s : State) :
    exec (.sneImm x nn) s = .next (s.setPc (if (s.reg x).toNat = nn.toNat then s.pc + 2 else s.pc + 4)) := by
  change Host.Outcome.next (s.advance.skipIf !(s.reg x == nn)) = _
  simp only [State.advance_skipIf, Bool.not_eq_true', ← Bool.not_eq_true, Byte.beq_iff_toNat_eq, ite_not]

/-- Settles O19, by one update of pc for each of the two instructions. -/
theorem skipOnImmediate : Obligations.SkipOnImmediate :=
  ⟨fun _ => decodeWord_seImm, fun _ => decodeWord_sneImm, fun x nn s => ⟨exec_seImm x nn s, exec_sneImm x nn s⟩⟩

end Sys2Proof.Machine
end

section
/-! PROOFS. A result written to one register without a flag (spec/43_register_alu.md R460), and the two immediate forms
(R461, R462). -/

namespace Sys2Proof.Machine

variable {s : State} {x r : Reg} {b : Byte}

/-! ### The write of a result -/

/-- R460: a result touches the registers and pc alone. -/
theorem State.withResult_frame (s : State) (x : Reg) (b : Byte) :
    s.withResult x b = { s with pc := s.pc + 2, v := (s.withResult x b).v } := rfl

@[simp] theorem State.reg_withResult_self : (s.withResult x b).reg x = b :=
  (State.reg_setV _ x x b).trans (if_pos rfl)

/-- VF is no exception: a result that is not for register 15 leaves it. -/
theorem State.reg_withResult_of_ne (h : r ≠ x) : (s.withResult x b).reg r = s.reg r :=
  (State.reg_setV _ x r b).trans (if_neg h)

/-! ### The immediate forms -/

theorem exec_ldImm (x : Reg) (nn : Byte) (s : State) : exec (.ldImm x nn) s = .next (s.withResult x nn) := rfl

theorem exec_addImm (x : Reg) (nn : Byte) (s : State) :
    exec (.addImm x nn) s = .next (s.withResult x (s.reg x + nn)) := rfl

/-- Settles O22, by the result NN of the write. -/
theorem loadImmediate : Obligations.LoadImmediate :=
  ⟨fun _ => decodeWord_ldImm, fun x nn s =>
    ⟨s.withResult x nn, exec_ldImm x nn s, s.withResult_frame x nn, State.reg_withResult_self,
      fun _ => State.reg_withResult_of_ne⟩⟩

/-- Settles O23: the sum of two bytes is the sum of their numbers modulo 256, and no other register is written. -/
theorem addImmediateWraps : Obligations.AddImmediateWraps := by
  refine ⟨fun _ => decodeWord_addImm, fun x nn s =>
    ⟨s.withResult x (s.reg x + nn), exec_addImm x nn s, s.withResult_frame x _, ?_,
      fun _ => State.reg_withResult_of_ne⟩⟩
  rw [State.reg_withResult_self]
  exact BitVec.toNat_add ..

end Sys2Proof.Machine
end

section
/-! PROOFS. LD I, NNN (spec/44_index_and_memory.md R500). -/

namespace Sys2Proof.Machine

/-- R500: the index takes the address of R304, and pc advances; no other field is written. -/
theorem exec_ldI (nnn : Addr12) (s : State) :
    exec (.ldI nnn) s = .next ((s.setPc (s.pc + 2)).setI (absoluteAddress nnn)) := rfl

/-- Settles O29, with the zero-extended address as the new index. -/
theorem loadIndex : Obligations.LoadIndex :=
  ⟨fun _ => decodeWord_ldI, fun nnn s => ⟨absoluteAddress nnn, absoluteAddress_toNat nnn, exec_ldI nnn s⟩⟩

end Sys2Proof.Machine
end

section
/-! PROOFS. CLS (spec/45_display.md R530). -/

namespace Sys2Proof.Machine

/-- R118: on the screen, `Framebuffer.pixel` is the entry of column `p` and row `q`. -/
theorem Framebuffer.pixel_eq_getElem (fb : Framebuffer) (p : Fin 64) (q : Fin 32) : fb.pixel p q = fb[p][q] :=
  dif_pos ⟨p.isLt, q.isLt⟩

/-- R530: neither the old pixels nor the old redraw flag matter; besides these two, only pc is written. -/
theorem exec_cls (s : State) :
    exec .cls s = .next (((s.setPc (s.pc + 2)).setFb Framebuffer.blank).setRedraw true) := rfl

/-- Settles O37, with the blank framebuffer as the new one; that bits 11:8 are ignored is decision D17. -/
theorem clearScreen : Obligations.ClearScreen :=
  ⟨fun _ => decodeWord_cls, fun s => ⟨Framebuffer.blank, exec_cls s, fun p q =>
    (Framebuffer.pixel_eq_getElem _ p q).symm.trans (Framebuffer.pixel_blank p q)⟩⟩

end Sys2Proof.Machine
end

section
/-! PROOFS. The delay timer: LD VX, DT and LD DT, VX (spec/46_timers_and_keypad.md R560, R562), and the countdown of the cycle
that runs them (spec/40_cycle.md R406). -/

namespace Sys2Proof.Machine

variable {s t : State} {i : Instr}

/-! ### What a committed cycle of a known instruction leaves in the delay timer and the registers -/

theorem State.dt_countTimers_toNat (t : State) : t.countTimers.dt.toNat = t.dt.toNat - 1 := by
  rw [State.countTimers_def]
  exact countdown_toNat t.dt

@[simp] theorem State.reg_countTimers (t : State) (r : Reg) : t.countTimers.reg r = t.reg r := by
  rw [State.countTimers_def, State.reg_setEvents, State.reg_setSt, State.reg_setDt]

/-- R402, R405: the instruction is given by the word that is fetched. -/
theorem cycle_of_decodeWord_committed (hp : s.pc.toNat < 4094) (hd : decodeWord s.fetchWord = i) (he : exec i s = .next t)
    (ht : t.status.isFaulted = false) : cycle s = .next t.countTimers :=
  cycle_of_exec_committed hp (hd.symm ▸ he) ht

/-! ### The two instructions -/

/-- R560: the result of the write is dt as the cycle began. -/
theorem exec_ldVxDt (x : Reg) (s : State) : exec (.ldVxDt x) s = .next (s.withResult x s.dt) := rfl

/-- R562: besides dt, only pc is written. -/
theorem exec_ldDtVx (x : Reg) (s : State) :
    exec (.ldDtVx x) s = .next ((s.setPc (s.pc + 2)).setDt (s.reg x)) := rfl

/-- Settles O40: the value is read by the instruction, and the countdown after it changes dt and no register. -/
theorem readDelayTimer : Obligations.ReadDelayTimer := by
  refine ⟨fun _ => decodeWord_ldVxDt, fun x s => ?_, fun x s hs hp hd => ?_⟩
  · exact ⟨s.withResult x s.dt, exec_ldVxDt x s, s.withResult_frame x s.dt, State.reg_withResult_self,
      fun _ => State.reg_withResult_of_ne⟩
  · refine ⟨_, cycle_of_decodeWord_committed hp hd (exec_ldVxDt x s) hs, ?_, ?_⟩
    · rw [State.reg_countTimers, State.reg_withResult_self]
    · exact State.dt_countTimers_toNat (s.withResult x s.dt)

/-- Settles O42: the countdown acts on the timer that the instruction has set, so V[X] = 0 stays 0. -/
theorem setDelayTimer : Obligations.SetDelayTimer := by
  refine ⟨fun _ => decodeWord_ldDtVx, exec_ldDtVx, fun x s hs hp hd => ?_⟩
  exact ⟨_, cycle_of_decodeWord_committed hp hd (exec_ldDtVx x s) hs, State.dt_countTimers_toNat _⟩

end Sys2Proof.Machine
end

section
/-! PROOFS. Reset and the entry point (spec/70_reset_and_hazards.md R700, R702). -/

namespace Sys2Proof.Machine

variable {s t : State}

/-- R650, R645: a reset that is answered was allowed, and leaves the reset state with its key, draws and parameters kept. -/
theorem hostReset_cases {y : Reply} (h : hostReset s = .next (t, y)) :
    s.status.allowsLoad = true ∧ t = s.afterReset ∧ y = .done := by
  unfold hostReset at h
  split at h
  · rename_i ha
    cases h
    exact ⟨ha, rfl, rfl⟩
  · cases h

/-- R700: what reset keeps of the state before it has no part in pc. -/
@[simp] theorem State.afterReset_pc (s : State) : s.afterReset.pc = 512 := rfl

/-- R402: the word fetched at a known address, the high byte first. -/
theorem State.fetchWord_of_pc_toNat {a : Nat} (h : s.pc.toNat = a) : s.fetchWord = s.read8 a ++ s.read8 (a + 1) := by
  subst h
  rfl

/-- Settles O57: every reset that is answered leaves pc at 512, and the fetch reads there. -/
theorem resetEntersAt512 : Obligations.ResetEntersAt512 := by
  refine ⟨rfl, fun s t y h => ?_⟩
  obtain ⟨-, rfl, -⟩ := hostReset_cases h
  have hpc : s.afterReset.pc.toNat = 512 := congrArg BitVec.toNat s.afterReset_pc
  exact ⟨hpc, State.fetchWord_of_pc_toNat hpc⟩

end Sys2Proof.Machine
end

section
/-! PROOFS. Encoding and decoding undo each other (spec/30_encoding.md R300 to R309). -/

namespace Sys2Proof

/-! ### Decoding an encoded instruction -/

/-- R305: by constructor. A fallback term is decoded as such because its well-formedness rules out the functions of its family. -/
theorem decodeWord_encode {i : Instr} (h : i.wf = true) : decodeWord (encode i) = i := by
  cases i with
  | cls | ret => rfl
  | jp | call | ldI | jpV0 | seImm | sneImm | ldImm | addImm | rnd | seReg | sneReg | drw => simp [encode, decodeWord]
  | ldReg | orReg | andReg | xorReg | addReg | subReg | shr | subn | shl => simp [encode, decodeWord, decodeFamily8]
  | skp | sknp => simp [encode, decodeWord, decodeFamilyE]
  | ldVxDt | ldVxK | ldDtVx | ldStVx | addI | ldF | ldB | ldMemVx | ldVxMem => simp [encode, decodeWord, decodeFamilyF]
  | sys nnn =>
    have hnn : nnn.setWidth 8 ∉ functions0 := of_decide_eq_true h
    rw [encode, decodeWord_sys (by rw [and_F000, fieldFamily_encodeNNN]; rfl) (by rwa [fieldNN_encodeNNN]),
      fieldNNN_encodeNNN]
  | nop8 x y n =>
    have hn : n ∉ functions8 := of_decide_eq_true h
    rw [encode, decodeWord_nop8 (by rw [and_F000, fieldFamily_encodeXYN]; rfl) (by rwa [fieldN_encodeXYN]),
      fieldX_encodeXYN, fieldY_encodeXYN, fieldN_encodeXYN]
  | nope x nn =>
    have hnn : nn ∉ functionsE := of_decide_eq_true h
    rw [encode, decodeWord_nope (by rw [and_F000, fieldFamily_encodeXNN]; rfl) (by rwa [fieldNN_encodeXNN]),
      fieldX_encodeXNN, fieldNN_encodeXNN]
  | nopf x nn =>
    have hnn : nn ∉ functionsF := of_decide_eq_true h
    rw [encode, decodeWord_nopf (by rw [and_F000, fieldFamily_encodeXNN]; rfl) (by rwa [fieldNN_encodeXNN]),
      fieldX_encodeXNN, fieldNN_encodeXNN]

/-- Settles O4: the two bytes are the encoded word split, and the word decodes to the instruction. -/
theorem decodeOfEncodeIsIdentity : Obligations.DecodeOfEncodeIsIdentity := by
  intro i rest h
  have hbytes : encodeBytes i ++ rest = highByte (encode i) :: lowByte (encode i) :: rest := rfl
  rw [hbytes, decode_cons_cons, wordOfBytes_split, decodeWord_encode h]

/-! ### Encoding a decoded word: a word is its fields again -/

theorem encodeNNN_fields (w : Word) : encodeNNN (fieldFamily w) (fieldNNN w) = w := by
  apply BitVec.eq_of_toNat_eq
  rw [encodeNNN_toNat, fieldFamily_toNat, fieldNNN_toNat]
  omega

theorem encodeXNN_fields (w : Word) : encodeXNN (fieldFamily w) (fieldX w) (fieldNN w) = w := by
  apply BitVec.eq_of_toNat_eq
  rw [encodeXNN_toNat, fieldFamily_toNat, fieldX_val, fieldNN_toNat]
  omega

theorem encodeXYN_fields (w : Word) : encodeXYN (fieldFamily w) (fieldX w) (fieldY w) (fieldN w) = w :=
  word_ext (fieldFamily_encodeXYN ..) (fieldX_encodeXYN ..) (fieldY_encodeXYN ..) (fieldN_encodeXYN ..)

theorem and_FFFF (w : Word) : w &&& 0xFFFF = w := BitVec.and_allOnes (x := w)

/-- What 5XYN and 9XYN, which ignore N, use of a word (R309). -/
theorem and_FFF0 (w : Word) : w &&& 0xFFF0 = encodeXYN (fieldFamily w) (fieldX w) (fieldY w) 0 := by
  apply word_ext
  · rw [fieldFamily_and, fieldFamily_encodeXYN]; exact BitVec.and_allOnes (x := fieldFamily w)
  · rw [fieldX_and, fieldX_encodeXYN]; exact congrArg BitVec.toFin (BitVec.and_allOnes (x := regField (fieldX w)))
  · rw [fieldY_and, fieldY_encodeXYN]; exact congrArg BitVec.toFin (BitVec.and_allOnes (x := regField (fieldY w)))
  · rw [fieldN_and, fieldN_encodeXYN]; exact BitVec.and_zero (x := fieldN w)

/-- What CLS and RET, which ignore bits 11:8, use of a word (R309). -/
theorem and_F0FF_eq_encodeXNN (w : Word) : w &&& 0xF0FF = encodeXNN (fieldFamily w) 0 (fieldNN w) := by
  apply BitVec.eq_of_toNat_eq
  rw [and_F0FF, encodeXNN_toNat, encodeXYN_toNat, fieldNN_toNat, fieldN_toNat, fieldY_val]
  omega

variable {w : Word} {f n : Nibble} {nn : Byte}

theorem encodeNNN_eq_and (hf : fieldFamily w = f) : encodeNNN f (fieldNNN w) = w &&& 0xFFFF := by
  rw [and_FFFF, ← hf, encodeNNN_fields]

theorem encodeXNN_eq_and (hf : fieldFamily w = f) (hnn : fieldNN w = nn) :
    encodeXNN f (fieldX w) nn = w &&& 0xFFFF := by
  rw [and_FFFF, ← hf, ← hnn, encodeXNN_fields]

theorem encodeXYN_eq_and (hf : fieldFamily w = f) (hn : fieldN w = n) :
    encodeXYN f (fieldX w) (fieldY w) n = w &&& 0xFFFF := by
  rw [and_FFFF, ← hf, ← hn, encodeXYN_fields]

theorem encodeXYN_zero_eq_and (hf : fieldFamily w = f) : encodeXYN f (fieldX w) (fieldY w) 0 = w &&& 0xFFF0 := by
  rw [and_FFF0, hf]

theorem encodeXNN_zero_eq_and (hf : fieldFamily w = f) (hnn : fieldNN w = nn) : encodeXNN f 0 nn = w &&& 0xF0FF := by
  rw [and_F0FF_eq_encodeXNN, hf, hnn]

/-- A decoded word, as R305 dispatches it: well-formed, and encoded as the bits of the word that it uses. -/
def RoundTrips (w : Word) (i : Instr) : Prop := i.wf = true ∧ encode i = w &&& i.usedBits

theorem roundTrips_family0 (hf : fieldFamily w = 0x0) : RoundTrips w (decodeFamily0 w) := by
  unfold decodeFamily0
  split
  case h_1 hnn => exact ⟨rfl, encodeXNN_zero_eq_and hf hnn⟩
  case h_2 hnn => exact ⟨rfl, encodeXNN_zero_eq_and hf hnn⟩
  case h_3 =>
    have hnn : (fieldNNN w).setWidth 8 = fieldNN w := by rw [← fieldNN_encodeNNN (fieldFamily w), encodeNNN_fields]
    exact ⟨by simp_all [Instr.wf, functions0], encodeNNN_eq_and hf⟩

theorem roundTrips_family8 (hf : fieldFamily w = 0x8) : RoundTrips w (decodeFamily8 w) := by
  unfold decodeFamily8
  split
  case h_10 => exact ⟨by simp_all [Instr.wf, functions8], encodeXYN_eq_and hf rfl⟩
  all_goals exact ⟨rfl, encodeXYN_eq_and hf ‹fieldN w = _›⟩

theorem roundTrips_familyE (hf : fieldFamily w = 0xE) : RoundTrips w (decodeFamilyE w) := by
  unfold decodeFamilyE
  split
  case h_3 => exact ⟨by simp_all [Instr.wf, functionsE], encodeXNN_eq_and hf rfl⟩
  all_goals exact ⟨rfl, encodeXNN_eq_and hf ‹fieldNN w = _›⟩

theorem roundTrips_familyF (hf : fieldFamily w = 0xF) : RoundTrips w (decodeFamilyF w) := by
  unfold decodeFamilyF
  split
  case h_10 => exact ⟨by simp_all [Instr.wf, functionsF], encodeXNN_eq_and hf rfl⟩
  all_goals exact ⟨rfl, encodeXNN_eq_and hf ‹fieldNN w = _›⟩

/-- The family that is left when the decoder has passed over the fifteen others. -/
theorem nibble_eq_fifteen {f : Nibble} (h0 : f ≠ 0x0) (h1 : f ≠ 0x1) (h2 : f ≠ 0x2) (h3 : f ≠ 0x3) (h4 : f ≠ 0x4)
    (h5 : f ≠ 0x5) (h6 : f ≠ 0x6) (h7 : f ≠ 0x7) (h8 : f ≠ 0x8) (h9 : f ≠ 0x9) (hA : f ≠ 0xA) (hB : f ≠ 0xB)
    (hC : f ≠ 0xC) (hD : f ≠ 0xD) (hE : f ≠ 0xE) : f = 0xF := by
  bv_omega

/-- By family; those with one instruction by its format (R303). -/
theorem roundTrips_decodeWord (w : Word) : RoundTrips w (decodeWord w) := by
  unfold decodeWord
  split <;> rename_i hf
  case h_1 => exact roundTrips_family0 hf
  case h_9 => exact roundTrips_family8 hf
  case h_15 => exact roundTrips_familyE hf
  case h_16 => exact roundTrips_familyF (by apply nibble_eq_fifteen <;> assumption)
  -- JP, CALL, LD I, JP V0: format NNN
  case h_2 | h_3 | h_11 | h_12 => exact ⟨rfl, encodeNNN_eq_and hf⟩
  -- SE, SNE, LD, ADD with an immediate, RND: format XNN
  case h_4 | h_5 | h_7 | h_8 | h_13 => exact ⟨rfl, encodeXNN_eq_and hf rfl⟩
  -- SE and SNE on registers, which ignore N
  case h_6 | h_10 => exact ⟨rfl, encodeXYN_zero_eq_and hf⟩
  -- DRW: format XYN
  case h_14 => exact ⟨rfl, encodeXYN_eq_and hf rfl⟩

/-- Settles O5, by the dispatch of R305: family, then function, whose fallback is left when no function matches. -/
theorem encodeOfDecodeIsWordsUsedBits : Obligations.EncodeOfDecodeIsWordsUsedBits := roundTrips_decodeWord

/-! ### The first row of the opcode map (R306), as a condition on the fields -/

theorem selects_F000 {p : Word} {m : String} (hp : p &&& 0xF000#16 = p) :
    OpcodeRow.selects ⟨0xF000#16, p, m⟩ w = (fieldFamily w == fieldFamily p) := by
  rw [Bool.eq_iff_iff, OpcodeRow.selects, beq_iff_eq, beq_iff_eq]
  refine ⟨fun h => fieldFamily_of_and (m := 0xF000) h rfl, fun h => ?_⟩
  calc w &&& 0xF000 = p &&& 0xF000 := by rw [and_F000, and_F000, h]
    _ = p := hp

theorem selects_F00F {p : Word} {m : String} (hp : p &&& 0xF00F#16 = p) :
    OpcodeRow.selects ⟨0xF00F#16, p, m⟩ w = (fieldFamily w == fieldFamily p && fieldN w == fieldN p) := by
  rw [Bool.eq_iff_iff, OpcodeRow.selects, Bool.and_eq_true, beq_iff_eq, beq_iff_eq, beq_iff_eq]
  refine ⟨fun h => ⟨fieldFamily_of_and (m := 0xF00F) h rfl, fieldN_of_and (m := 0xF00F) h rfl⟩, fun ⟨hf, hn⟩ => ?_⟩
  calc w &&& 0xF00F = p &&& 0xF00F := by rw [and_F00F, and_F00F, hf, hn]
    _ = p := hp

theorem selects_F0FF {p : Word} {m : String} (hp : p &&& 0xF0FF#16 = p) :
    OpcodeRow.selects ⟨0xF0FF#16, p, m⟩ w = (fieldFamily w == fieldFamily p && fieldNN w == fieldNN p) := by
  rw [Bool.eq_iff_iff, OpcodeRow.selects, Bool.and_eq_true, beq_iff_eq, beq_iff_eq, beq_iff_eq]
  refine ⟨fun h => ⟨fieldFamily_of_and (m := 0xF0FF) h rfl, fieldNN_of_and (m := 0xF0FF) h rfl⟩, fun ⟨hf, hn⟩ => ?_⟩
  calc w &&& 0xF0FF = p &&& 0xF0FF := by rw [and_F0FF_eq_encodeXNN, and_F0FF_eq_encodeXNN, hf, hn]
    _ = p := hp

theorem fieldFamily_ofNat (k : Nat) : fieldFamily (BitVec.ofNat 16 k) = BitVec.ofNat 4 (k / 4096) := by
  apply BitVec.eq_of_toNat_eq
  rw [fieldFamily_toNat, BitVec.toNat_ofNat, BitVec.toNat_ofNat]
  omega

theorem fieldN_ofNat (k : Nat) : fieldN (BitVec.ofNat 16 k) = BitVec.ofNat 4 k := by
  apply BitVec.eq_of_toNat_eq
  rw [fieldN_toNat, BitVec.toNat_ofNat, BitVec.toNat_ofNat]
  omega

theorem fieldNN_ofNat (k : Nat) : fieldNN (BitVec.ofNat 16 k) = BitVec.ofNat 8 k := by
  apply BitVec.eq_of_toNat_eq
  rw [fieldNN_toNat, BitVec.toNat_ofNat, BitVec.toNat_ofNat]
  omega

/-- The first row that a word selects is that of the instruction `i`: in a family, the rows before it ask for another family or
another function. -/
def FirstRowIsOf (w : Word) (i : Instr) : Prop := ∃ r, firstRow w = some r ∧ r.mnemonic = i.mnemonic

theorem firstRowIsOf_family0 (hf : fieldFamily w = 0x0) : FirstRowIsOf w (decodeFamily0 w) := by
  unfold FirstRowIsOf firstRow decodeFamily0
  split <;> simp_all [opcodeRows, selects_F000, selects_F0FF, fieldFamily_ofNat, fieldNN_ofNat, Instr.mnemonic]

theorem firstRowIsOf_family8 (hf : fieldFamily w = 0x8) : FirstRowIsOf w (decodeFamily8 w) := by
  unfold FirstRowIsOf firstRow decodeFamily8
  split <;> simp_all [opcodeRows, selects_F000, selects_F00F, selects_F0FF, fieldFamily_ofNat, fieldN_ofNat, Instr.mnemonic]

theorem firstRowIsOf_familyE (hf : fieldFamily w = 0xE) : FirstRowIsOf w (decodeFamilyE w) := by
  unfold FirstRowIsOf firstRow decodeFamilyE
  split <;> simp_all [opcodeRows, selects_F000, selects_F00F, selects_F0FF, fieldFamily_ofNat, fieldNN_ofNat, Instr.mnemonic]

theorem firstRowIsOf_familyF (hf : fieldFamily w = 0xF) : FirstRowIsOf w (decodeFamilyF w) := by
  unfold FirstRowIsOf firstRow decodeFamilyF
  split <;> simp_all [opcodeRows, selects_F000, selects_F00F, selects_F0FF, fieldFamily_ofNat, fieldNN_ofNat, Instr.mnemonic]

/-- Settles O3, by the dispatch of R305 again. -/
theorem decoderFollowsOpcodeMap : Obligations.DecoderFollowsOpcodeMap := by
  intro w
  change FirstRowIsOf w (decodeWord w)
  unfold decodeWord
  split <;> rename_i hf
  case h_1 => exact firstRowIsOf_family0 hf
  case h_9 => exact firstRowIsOf_family8 hf
  case h_15 => exact firstRowIsOf_familyE hf
  case h_16 => exact firstRowIsOf_familyF (by apply nibble_eq_fifteen <;> assumption)
  -- the families with one row each
  all_goals
    simp [FirstRowIsOf, firstRow, opcodeRows, selects_F000, selects_F00F, selects_F0FF, fieldFamily_ofNat, hf, Instr.mnemonic]

/-! ### Sanity -/

/-- Settles O6, each word by evaluation. -/
theorem knownWordsDecode : Obligations.KnownWordsDecode := by
  unfold Obligations.KnownWordsDecode
  decide

end Sys2Proof
end

section
/-! PROOFS. The call stack's instructions and JP V0 (spec/41_control_transfer.md R420 to R423). -/

namespace Sys2Proof.Machine

variable {s : State} {w : Word}

/-! ### Push and pop, on each side of their guards -/

theorem State.push_of_room (h : s.sp.val < 16) (w : Word) :
    s.push w = some (s.setStack (s.stack.set s.sp.val (some w)) ⟨s.sp.val + 1, by omega⟩) :=
  dif_pos h

theorem State.pop_of_pos (h : 0 < s.sp.val) :
    s.pop = some (s.stack[s.sp.val - 1], s.setStack s.stack ⟨s.sp.val - 1, by omega⟩) :=
  dif_pos h

/-! ### CALL -/

theorem exec_call_of_room (nnn : Addr12) (h : s.sp.val < 16) :
    exec (.call nnn) s = .next ((s.setStack (s.stack.set s.sp.val (some (s.pc + 2))) ⟨s.sp.val + 1, by omega⟩).setPc
      (absoluteAddress nnn)) := by
  rw [exec, execCall, State.push_of_room (s := s.advance) h]
  rfl

theorem exec_call_of_full (nnn : Addr12) (h : s.sp.val = 16) :
    exec (.call nnn) s = .next (s.raise .stackOverflow s.pc) := by
  rw [exec, execCall, (State.push_eq_none (s := s.advance)).mpr h]

/-- Settles O15, by the two sides of the push. -/
theorem callPushesReturnAddress : Obligations.CallPushesReturnAddress := by
  refine ⟨fun _ => decodeWord_call, fun nnn s => ⟨fun h => ?_, exec_call_of_full nnn⟩⟩
  refine ⟨_, exec_call_of_room nnn h, absoluteAddress_toNat nnn, rfl, fun j => ?_, rfl⟩
  have hset : (s.stack.set s.sp.val (some (s.pc + 2)))[j.val] =
      if s.sp.val = j.val then some (s.pc + 2) else s.stack[j.val] := Vector.getElem_set ..
  exact hset.trans (if_congr eq_comm rfl rfl)

/-! ### RET -/

theorem exec_ret_of_slot (h : 0 < s.sp.val) (hw : s.stack[s.sp.val - 1] = some w) :
    exec .ret s = .next ((s.setStack s.stack ⟨s.sp.val - 1, by omega⟩).setPc w) := by
  have hw' : s.advance.stack[s.advance.sp.val - 1] = some w := hw
  rw [exec, execRet, State.pop_of_pos (s := s.advance) h, hw']
  rfl

theorem exec_ret_of_empty_slot (h : 0 < s.sp.val) (hw : s.stack[s.sp.val - 1] = none) :
    exec .ret s = .fault .emptySlot := by
  have hw' : s.advance.stack[s.advance.sp.val - 1] = none := hw
  rw [exec, execRet, State.pop_of_pos (s := s.advance) h, hw']

theorem exec_ret_of_empty_stack (h : s.sp.val = 0) : exec .ret s = .next (s.raise .stackUnderflow s.pc) := by
  rw [exec, execRet, (State.pop_eq_none (s := s.advance)).mpr h]

/-- Settles O16, by the two sides of the pop and what the slot holds. -/
theorem returnPopsSavedAddress : Obligations.ReturnPopsSavedAddress :=
  ⟨fun _ => decodeWord_ret, fun _ =>
    ⟨fun h _ hw => ⟨_, rfl, exec_ret_of_slot h hw⟩, exec_ret_of_empty_stack, exec_ret_of_empty_slot⟩⟩

/-- Settles O17: the RET pops the slot that the CALL has filled, whatever pc is in between. -/
theorem callThenReturnComesBack : Obligations.CallThenReturnComesBack := by
  intro nnn s p h
  have hslot : (s.stack.set s.sp.val (some (s.pc + 2)))[s.sp.val] = some (s.pc + 2) := Vector.getElem_set_self h
  refine ⟨_, _, exec_call_of_room nnn h, exec_ret_of_slot (Nat.succ_pos _) hslot, rfl, rfl, fun j hj => ?_, rfl⟩
  exact Vector.getElem_set_ne h j.isLt (Nat.ne_of_gt hj)

/-! ### JP V0 -/

/-- R423: at most 4095 + 255, so the sum of the two words does not wrap. -/
theorem State.offsetTarget_toNat (s : State) (nnn : Addr12) :
    (s.offsetTarget nnn).toNat = nnn.toNat + (s.reg 0).toNat := by
  have := nnn.isLt
  have := (s.reg 0).isLt
  rw [State.offsetTarget, BitVec.toNat_add, absoluteAddress_toNat, BitVec.toNat_setWidth]
  omega

theorem exec_jpV0 (nnn : Addr12) (s : State) : exec (.jpV0 nnn) s = .next (s.setPc (s.offsetTarget nnn)) := rfl

/-- Settles O18, with the target as the new pc. -/
theorem jumpWithOffsetIsNotReduced : Obligations.JumpWithOffsetIsNotReduced :=
  ⟨fun _ => decodeWord_jpV0, fun nnn s => ⟨s.offsetTarget nnn, s.offsetTarget_toNat nnn, exec_jpV0 nnn s⟩⟩

end Sys2Proof.Machine
end

section
/-! PROOFS. The skips on registers and on the key latch (spec/42_skips.md R443 to R446). -/

namespace Sys2Proof.Machine

variable {s : State} {x : Reg}

/-- R443: comparing with a register is comparing with the immediate that it holds. -/
theorem exec_seReg (x y : Reg) (s : State) :
    exec (.seReg x y) s = .next (s.setPc (if (s.reg x).toNat = (s.reg y).toNat then s.pc + 4 else s.pc + 2)) :=
  exec_seImm x (s.reg y) s

/-- R444, the same. -/
theorem exec_sneReg (x y : Reg) (s : State) :
    exec (.sneReg x y) s = .next (s.setPc (if (s.reg x).toNat = (s.reg y).toNat then s.pc + 2 else s.pc + 4)) :=
  exec_sneImm x (s.reg y) s

/-- Settles O20, by one update of pc for each of the two instructions. -/
theorem skipOnRegisters : Obligations.SkipOnRegisters :=
  ⟨fun _ => decodeWord_seReg, fun _ => decodeWord_sneReg, fun x y s => ⟨exec_seReg x y s, exec_sneReg x y s⟩⟩

/-- R445: the code of a key and a register compare as numbers. -/
theorem State.keyMatches_iff (s : State) (x : Reg) : s.keyMatches x = true ↔ s.HoldsKey x := by
  unfold State.keyMatches State.HoldsKey
  cases s.key with
  | none => simp
  | some k =>
    have hk : (k.setWidth 8).toNat = k.toNat := BitVec.toNat_setWidth_of_le (by decide)
    rw [beq_iff_eq, ← BitVec.toNat_inj, hk]
    simp

theorem exec_skp (x : Reg) (s : State) :
    exec (.skp x) s = .next (s.setPc (if s.keyMatches x then s.pc + 4 else s.pc + 2)) :=
  congrArg _ (s.advance_skipIf _)

theorem exec_sknp (x : Reg) (s : State) :
    exec (.sknp x) s = .next (s.setPc (if s.keyMatches x then s.pc + 2 else s.pc + 4)) := by
  have h : exec (.sknp x) s = .next (s.advance.skipIf !s.keyMatches x) := rfl
  rw [h, State.advance_skipIf]
  cases s.keyMatches x <;> rfl

/-- Settles O21: the latch holds the key V[X], or it does not. -/
theorem skipOnKeyLatch : Obligations.SkipOnKeyLatch := by
  refine ⟨fun _ => decodeWord_skp, fun _ => decodeWord_sknp, fun x s => ⟨fun hk => ?_, fun hk => ?_⟩⟩
  · have h : s.keyMatches x = true := (s.keyMatches_iff x).mpr hk
    rw [exec_skp, exec_sknp, h]
    exact ⟨rfl, rfl⟩
  · have h : s.keyMatches x = false :=
      Bool.eq_false_iff.mpr fun hm => by
        obtain ⟨k, hkey, hcode⟩ := (s.keyMatches_iff x).mp hm
        exact hk k hkey hcode
    rw [exec_skp, exec_sknp, h]
    exact ⟨rfl, rfl⟩

end Sys2Proof.Machine
end

section
/-! PROOFS. The register ALU (spec/43_register_alu.md R463 to R482): results without a flag, and results whose flag is written
last. -/

namespace Sys2Proof.Machine

variable {s : State} {x r : Reg} {b : Byte} {f : Bool}

/-! ### Copy and logic -/

/-- Settles O24: each of the four writes one result, which is its function bit by bit. -/
theorem copyAndLogicWriteNoFlag : Obligations.CopyAndLogicWriteNoFlag := by
  refine ⟨fun _ => decodeWord_ldReg, fun _ => decodeWord_orReg, fun _ => decodeWord_andReg, fun _ => decodeWord_xorReg, ?_⟩
  intro x y s i op hi
  obtain ⟨b, he, hb⟩ : ∃ b, exec i s = .next (s.withResult x b) ∧
      ∀ k, b.getLsbD k = op ((s.reg x).getLsbD k) ((s.reg y).getLsbD k) := by
    obtain ⟨rfl, rfl⟩ | ⟨rfl, rfl⟩ | ⟨rfl, rfl⟩ | ⟨rfl, rfl⟩ := hi
    · exact ⟨_, rfl, fun _ => rfl⟩
    · exact ⟨_, rfl, fun _ => BitVec.getLsbD_or⟩
    · exact ⟨_, rfl, fun _ => BitVec.getLsbD_and⟩
    · exact ⟨_, rfl, fun _ => BitVec.getLsbD_xor⟩
  refine ⟨_, he, s.withResult_frame x b, fun k _ => ?_, fun _ => State.reg_withResult_of_ne⟩
  rw [State.reg_withResult_self, hb]

/-! ### RND -/

/-- Settles O28: the result is the draw masked, which 0 masks to 0. -/
theorem randomIsMaskedDraw : Obligations.RandomIsMaskedDraw := by
  refine ⟨fun _ => decodeWord_rnd, fun x nn s => ⟨_, rfl, rfl, fun k _ => ?_, fun h => ?_, fun _ hr => ?_⟩⟩
  · rw [State.reg_withResult_self]
    exact BitVec.getLsbD_and
  · rw [State.reg_withResult_self, h]
    exact BitVec.and_zero
  · exact State.reg_withResult_of_ne hr

/-! ### A result and its flag (R460) -/

theorem State.withResultAndFlag_frame (s : State) (x : Reg) (b : Byte) (f : Bool) :
    s.withResultAndFlag x b f = { s with pc := s.pc + 2, v := (s.withResultAndFlag x b f).v } := rfl

/-- R101: the flag is what VF holds, even when it is also the destination. -/
@[simp] theorem State.reg_withResultAndFlag_flag : (s.withResultAndFlag x b f).reg 15 = flagByte f :=
  (State.reg_setV _ 15 15 _).trans (if_pos rfl)

theorem State.reg_withResultAndFlag_self (h : x ≠ 15) : (s.withResultAndFlag x b f).reg x = b :=
  (State.reg_setV _ 15 x _).trans ((if_neg h).trans State.reg_withResult_self)

theorem State.reg_withResultAndFlag_of_ne (hx : r ≠ x) (hf : r ≠ 15) : (s.withResultAndFlag x b f).reg r = s.reg r :=
  (State.reg_setV _ 15 r _).trans ((if_neg hf).trans (State.reg_withResult_of_ne hx))

/-- What the instructions with a flag have in common: pc and the registers are written, VF with the flag, and V[X], where it is
not VF, with the result. -/
theorem exists_of_exec_eq_withResultAndFlag {i : Instr} {m n : Nat} (h : exec i s = .next (s.withResultAndFlag x b f))
    (hflag : (flagByte f).toNat = m) (hresult : b.toNat = n) :
    ∃ t, exec i s = .next t ∧ t = { s with pc := s.pc + 2, v := t.v } ∧ (t.reg 15).toNat = m ∧
      (x ≠ 15 → (t.reg x).toNat = n) ∧ ∀ r : Reg, r ≠ x → r ≠ 15 → t.reg r = s.reg r := by
  refine ⟨_, h, s.withResultAndFlag_frame x b f, ?_, fun hx => ?_, fun _ => State.reg_withResultAndFlag_of_ne⟩
  · rw [State.reg_withResultAndFlag_flag, hflag]
  · rw [State.reg_withResultAndFlag_self hx, hresult]

theorem flagByte_toNat (c : Bool) : (flagByte c).toNat = if c then 1 else 0 := by cases c <;> rfl

/-! ### Sums and differences -/

theorem exec_addReg (x y : Reg) (s : State) :
    exec (.addReg x y) s = .next (s.withResultAndFlag x (s.reg x + s.reg y) (carry (s.reg x) (s.reg y))) := rfl

theorem flagByte_carry_toNat (a b : Byte) : (flagByte (carry a b)).toNat = if 255 < a.toNat + b.toNat then 1 else 0 := by
  rw [flagByte_toNat, carry]
  simp only [decide_eq_true_eq]

/-- Settles O25: the sum of two bytes is that of their numbers modulo 256, and the carry is written after it. -/
theorem addRegistersSetsCarry : Obligations.AddRegistersSetsCarry :=
  ⟨fun _ => decodeWord_addReg, fun x y s =>
    exists_of_exec_eq_withResultAndFlag (exec_addReg x y s) (flagByte_carry_toNat ..) (BitVec.toNat_add ..)⟩

theorem exec_subReg (x y : Reg) (s : State) :
    exec (.subReg x y) s = .next (s.withResultAndFlag x (s.reg x - s.reg y) (noBorrow (s.reg x) (s.reg y))) := rfl

theorem exec_subn (x y : Reg) (s : State) :
    exec (.subn x y) s = .next (s.withResultAndFlag x (s.reg y - s.reg x) (noBorrow (s.reg y) (s.reg x))) := rfl

theorem flagByte_noBorrow_toNat (a b : Byte) : (flagByte (noBorrow a b)).toNat = if b.toNat ≤ a.toNat then 1 else 0 := by
  rw [flagByte_toNat, noBorrow]
  simp only [decide_eq_true_eq]

/-- R475: a negative difference is reduced by adding 256. -/
theorem sub_toNat (a b : Byte) : (a - b).toNat = if b.toNat ≤ a.toNat then a.toNat - b.toNat else a.toNat + 256 - b.toNat := by
  split <;> bv_omega

/-- Settles O26, by the two instructions; each is a difference with its flag. -/
theorem subtractSetsNoBorrow : Obligations.SubtractSetsNoBorrow := by
  refine ⟨fun _ => decodeWord_subReg, fun _ => decodeWord_subn, ?_⟩
  rintro x y s i a b (⟨rfl, rfl, rfl⟩ | ⟨rfl, rfl, rfl⟩)
  · exact exists_of_exec_eq_withResultAndFlag (exec_subReg x y s) (flagByte_noBorrow_toNat ..) (sub_toNat ..)
  · exact exists_of_exec_eq_withResultAndFlag (exec_subn x y s) (flagByte_noBorrow_toNat ..) (sub_toNat ..)

/-! ### Shifts -/

theorem exec_shr (x y : Reg) (s : State) :
    exec (.shr x y) s =
      .next (s.withResultAndFlag x (s.shiftOperand x y >>> 1) (shiftedOutRight (s.shiftOperand x y))) := rfl

theorem exec_shl (x y : Reg) (s : State) :
    exec (.shl x y) s =
      .next (s.withResultAndFlag x (s.shiftOperand x y <<< 1) (shiftedOutLeft (s.shiftOperand x y))) := rfl

/-- R469, R471: the operand is the register that SHIFT_SOURCE names. -/
theorem State.shiftOperand_toNat {y : Reg} {n : Nat}
    (h : (s.config.shiftSource = .vx ∧ n = (s.reg x).toNat) ∨ (s.config.shiftSource = .vy ∧ n = (s.reg y).toNat)) :
    (s.shiftOperand x y).toNat = n := by
  rw [State.shiftOperand]
  obtain ⟨hc, rfl⟩ | ⟨hc, rfl⟩ := h <;> rw [hc]

theorem flagByte_shiftedOutRight_toNat (b : Byte) : (flagByte (shiftedOutRight b)).toNat = b.toNat % 2 := by
  rw [flagByte_toNat, shiftedOutRight, BitVec.getLsbD, Nat.testBit_zero]
  simp only [decide_eq_true_eq]
  split <;> omega

theorem flagByte_shiftedOutLeft_toNat (b : Byte) : (flagByte (shiftedOutLeft b)).toNat = b.toNat / 128 := by
  have := b.isLt
  rw [flagByte_toNat, shiftedOutLeft, BitVec.getLsbD, Nat.testBit_eq_decide_div_mod_eq]
  simp only [decide_eq_true_eq]
  split <;> omega

theorem ushiftRight_one_toNat (b : Byte) : (b >>> 1).toNat = b.toNat / 2 := by
  rw [BitVec.toNat_ushiftRight, Nat.shiftRight_eq_div_pow]

theorem shiftLeft_one_toNat (b : Byte) : (b <<< 1).toNat = b.toNat * 2 % 256 := by
  rw [BitVec.toNat_shiftLeft, Nat.shiftLeft_eq]

/-- Settles O27, for both values of SHIFT_SOURCE at once: the operand is the number b. -/
theorem shiftsSetShiftedOutBit : Obligations.ShiftsSetShiftedOutBit := by
  refine ⟨fun _ => decodeWord_shr, fun _ => decodeWord_shl, fun x y s b h => ?_⟩
  obtain rfl := State.shiftOperand_toNat h
  constructor
  · exact exists_of_exec_eq_withResultAndFlag (exec_shr x y s) (flagByte_shiftedOutRight_toNat _) (ushiftRight_one_toNat _)
  · exact exists_of_exec_eq_withResultAndFlag (exec_shl x y s) (flagByte_shiftedOutLeft_toNat _) (shiftLeft_one_toNat _)

end Sys2Proof.Machine
end

section
/-! PROOFS. The index register (spec/44_index_and_memory.md R501, R502). -/

namespace Sys2Proof.Machine

variable {s : State} {x : Reg}

/-! ### ADD I, VX -/

theorem exec_addI_of_le (h : s.i.toNat + (s.reg x).toNat ≤ 0xFFFF) :
    exec (.addI x) s = .next (s.advance.setI (BitVec.ofNat 16 (s.indexSum x))) :=
  if_neg (Nat.not_lt.mpr h)

theorem exec_addI_of_lt (h : 0xFFFF < s.i.toNat + (s.reg x).toNat) :
    exec (.addI x) s = .next (s.raise .indexOverflow s.i) :=
  if_pos h

/-- Settles O30, by the two sides of the limit. -/
theorem addToIndex : Obligations.AddToIndex := by
  refine ⟨fun _ => decodeWord_addI, fun x s => ⟨fun h => ⟨_, ?_, exec_addI_of_le h⟩, exec_addI_of_lt⟩⟩
  rw [BitVec.toNat_ofNat]
  exact Nat.mod_eq_of_lt (Nat.lt_succ_of_le h)

/-! ### LD F, VX -/

/-- R502: five times a byte fits in a word. -/
theorem setWidth_mul_five_toNat (b : Byte) : (b.setWidth 16 * 5).toNat = b.toNat * 5 := by
  bv_omega

theorem and_low_nibble_toNat (b : Byte) : (b &&& 0x0F).toNat = b.toNat % 16 := by
  rw [BitVec.toNat_and]
  exact Nat.and_two_pow_sub_one_eq_mod b.toNat 4

theorem State.glyphAddress_toNat (s : State) (x : Reg) : (s.glyphAddress x).toNat =
    if s.config.fontIndexMode = .full then (s.reg x).toNat * 5 else (s.reg x).toNat % 16 * 5 := by
  rw [State.glyphAddress]
  cases s.config.fontIndexMode with
  | full => exact setWidth_mul_five_toNat _
  | lowNibble => rw [setWidth_mul_five_toNat, and_low_nibble_toNat]; rfl

theorem exec_ldF (x : Reg) (s : State) : exec (.ldF x) s = .next (s.advance.setI (s.glyphAddress x)) := rfl

/-- Settles O31: the two modes give one number below 16, which is its own remainder. -/
theorem fontIndexInBothModes : Obligations.FontIndexInBothModes := by
  refine ⟨fun _ => decodeWord_ldF, fun x s => ⟨_, exec_ldF x s, fun h => ?_, fun h => ?_, fun h => ?_⟩⟩ <;>
    rw [State.glyphAddress_toNat]
  · rw [if_pos h]
  · rw [h]; rfl
  · split <;> omega

end Sys2Proof.Machine
end

section
/-! PROOFS. The memory transfers (spec/44_index_and_memory.md R503 to R505; spec/20_memory.md R206, R223). -/

namespace Sys2Proof.Machine

variable {s : State} {x r : Reg}

/-! ### The range check of a transfer of one byte or more -/

theorem State.accessFits_succ {n : Nat} (h : s.i.toNat + n < 4096) : s.accessFits (n + 1) = true :=
  (s.accessFits_iff (n + 1)).mpr (.inr h)

theorem State.not_accessFits_succ {n : Nat} (h : 4096 ≤ s.i.toNat + n) : ¬ s.accessFits (n + 1) = true := by
  rw [State.accessFits_iff]
  omega

theorem exec_ldB_of_fits (h : s.i.toNat + 2 < 4096) :
    exec (.ldB x) s = .next (s.advance.writeBytes s.i.toNat (bcdDigits (s.reg x))) :=
  if_pos (State.accessFits_succ h)

theorem exec_ldB_of_beyond (h : 4096 ≤ s.i.toNat + 2) : exec (.ldB x) s = .next (s.raise .memoryOutOfBounds s.i) :=
  if_neg (State.not_accessFits_succ h)

theorem exec_ldMemVx_of_fits (h : s.i.toNat + x.val < 4096) :
    exec (.ldMemVx x) s =
      .next ((s.advance.writeBytes s.i.toNat (s.regsUpTo x)).setI (s.indexAfterTransfer x)) :=
  if_pos (State.accessFits_succ h)

theorem exec_ldMemVx_of_beyond (h : 4096 ≤ s.i.toNat + x.val) :
    exec (.ldMemVx x) s = .next (s.raise .memoryOutOfBounds s.i) :=
  if_neg (State.not_accessFits_succ h)

theorem exec_ldVxMem_of_fits (h : s.i.toNat + x.val < 4096) :
    exec (.ldVxMem x) s = .next ((s.advance.setRegs (s.regsLoaded x)).setI (s.indexAfterTransfer x)) :=
  if_pos (State.accessFits_succ h)

theorem exec_ldVxMem_of_beyond (h : 4096 ≤ s.i.toNat + x.val) :
    exec (.ldVxMem x) s = .next (s.raise .memoryOutOfBounds s.i) :=
  if_neg (State.not_accessFits_succ h)

/-- R531: the range of a sprite of no row is never checked. -/
theorem exec_drw_of_fits {x y : Reg} {n : Nibble} (h : n.toNat = 0 ∨ s.i.toNat + n.toNat ≤ 4096) :
    exec (.drw x y n) s =
      .next (((s.advance.setFb (s.sprite x y n).1).setFlag (flagByte (s.sprite x y n).2)).setRedraw true) :=
  if_pos ((s.accessFits_iff _).mpr h)

theorem exec_drw_of_beyond {x y : Reg} {n : Nibble} (hn : 1 ≤ n.toNat) (h : 4096 ≤ s.i.toNat + n.toNat - 1) :
    exec (.drw x y n) s = .next (s.raise .memoryOutOfBounds s.i) := by
  refine if_neg fun hfits => ?_
  rw [State.accessFits_iff] at hfits
  omega

/-- Settles O35, by the failing side of each of the four checks. -/
theorem accessBeyondMemoryFaults : Obligations.AccessBeyondMemoryFaults := fun _ =>
  ⟨fun _ _ _ => exec_drw_of_beyond, fun _ => exec_ldB_of_beyond,
    fun _ h => ⟨exec_ldMemVx_of_beyond h, exec_ldVxMem_of_beyond h⟩⟩

/-! ### Reads after a block of bytes has been written -/

theorem State.read8_writeBytes_inside (hm : s.memSorted) {a k : Nat} {bs : List Byte} {b : Byte} (h : bs[k]? = some b) :
    (s.writeBytes a bs).read8 (a + k) = b := by
  rw [State.read8_writeBytes hm, if_pos (Nat.le_add_right a k), Nat.add_sub_cancel_left, h, Option.getD_some]

theorem State.read8_writeBytes_outside (hm : s.memSorted) {a p : Nat} {bs : List Byte} (h : p < a ∨ a + bs.length ≤ p) :
    (s.writeBytes a bs).read8 p = s.read8 p := by
  rw [State.read8_writeBytes hm]
  split
  · rw [List.getElem?_eq_none (by omega), Option.getD_none]
  · rfl

/-- Settles O32: the digits are quotients and remainders of the byte as a number. -/
theorem storeDecimalDigits : Obligations.StoreDecimalDigits := by
  refine ⟨fun _ => decodeWord_ldB, fun x s hwf h => ?_⟩
  have hm : s.advance.memSorted := State.memSorted_of_wf hwf
  refine ⟨_, exec_ldB_of_fits h, State.writeBytes_setMem .., ?_, ?_, ?_, fun a ha => ?_⟩
  · exact congrArg BitVec.toNat (State.read8_writeBytes_inside hm (bs := bcdDigits (s.reg x)) (k := 0) rfl)
  · exact congrArg BitVec.toNat (State.read8_writeBytes_inside hm (bs := bcdDigits (s.reg x)) (k := 1) rfl)
  · exact congrArg BitVec.toNat (State.read8_writeBytes_inside hm (bs := bcdDigits (s.reg x)) (k := 2) rfl)
  · exact State.read8_writeBytes_outside hm (by rw [bcdDigits, List.length_cons, List.length_cons, List.length_singleton]; omega)

/-! ### The registers as a block of bytes -/

@[simp] theorem State.length_regsUpTo (s : State) (x : Reg) : (s.regsUpTo x).length = x.val + 1 := by
  have := x.isLt
  simp only [State.regsUpTo, List.length_take, Vector.length_toList]
  omega

theorem State.getElem?_regsUpTo (h : r ≤ x) : (s.regsUpTo x)[r.val]? = some (s.reg r) := by
  have hr : r.val < x.val + 1 := Nat.lt_succ_of_le h
  rw [State.regsUpTo, List.getElem?_take_of_lt hr]
  simp [State.reg]

theorem State.indexAfterTransfer_unchanged (h : s.config.loadStoreIMode = .unchanged) : s.indexAfterTransfer x = s.i := by
  rw [State.indexAfterTransfer, h]

/-- R504, R505: a range that fits keeps I + X + 1 at 4096 or below. -/
theorem State.indexAfterTransfer_increment (h : s.config.loadStoreIMode = .increment) (hx : s.i.toNat + x.val < 4096) :
    (s.indexAfterTransfer x).toNat = s.i.toNat + x.val + 1 := by
  rw [State.indexAfterTransfer, h]
  simp only [BitVec.toNat_add, BitVec.toNat_ofNat]
  omega

/-- Settles O33: the block that is written is V[0] to V[X]. -/
theorem storeRegisters : Obligations.StoreRegisters := by
  refine ⟨fun _ => decodeWord_ldMemVx, fun x s hwf h => ?_⟩
  have hm : s.advance.memSorted := State.memSorted_of_wf hwf
  refine ⟨_, exec_ldMemVx_of_fits h, ?_, fun r hr => ?_, fun a ha => ?_, State.indexAfterTransfer_unchanged,
    fun hc => State.indexAfterTransfer_increment hc h⟩
  · rw [State.writeBytes_setMem]
    rfl
  · exact State.read8_writeBytes_inside hm (State.getElem?_regsUpTo hr)
  · exact State.read8_writeBytes_outside hm (by rw [State.length_regsUpTo]; omega)

/-- R505: which registers a load replaces. -/
theorem State.getElem_regsLoaded (s : State) (x r : Reg) :
    (s.regsLoaded x)[r] = if r ≤ x then s.read8 (s.i.toNat + r.val) else s.reg r :=
  Vector.getElem_ofFn r.isLt

/-- R505: a load touches the registers, I and pc alone. -/
theorem State.setRegs_setI_frame (s : State) (v : Vector Byte 16) (w : Word) :
    (s.advance.setRegs v).setI w = { s with
      pc := s.pc + 2, v := ((s.advance.setRegs v).setI w).v, i := ((s.advance.setRegs v).setI w).i } := rfl

/-- Settles O34, by the registers up to X and those above it. -/
theorem loadRegisters : Obligations.LoadRegisters := by
  refine ⟨fun _ => decodeWord_ldVxMem, fun x s h => ?_⟩
  refine ⟨_, exec_ldVxMem_of_fits h, State.setRegs_setI_frame .., fun r => ?_, State.indexAfterTransfer_unchanged,
    fun hc => State.indexAfterTransfer_increment hc h⟩
  rw [State.reg_setI, State.reg_setRegs, State.getElem_regsLoaded]

/-- Settles O36: the fetch reads two neighbours of the block that has been written. -/
theorem storedRegistersAreFetched : Obligations.StoredRegistersAreFetched := by
  intro x r s hwf h hr hpc
  have hm : s.advance.memSorted := State.memSorted_of_wf hwf
  refine ⟨_, exec_ldMemVx_of_fits h, ?_⟩
  have hpc' : ((s.advance.writeBytes s.i.toNat (s.regsUpTo x)).setI (s.indexAfterTransfer x)).pc.toNat =
      s.i.toNat + r.val := by
    rw [State.writeBytes_setMem]
    exact hpc
  have hlo : r ≤ x := Nat.le_of_succ_le hr
  have hhi : (⟨r.val + 1, by omega⟩ : Reg) ≤ x := hr
  rw [State.fetchWord_of_pc_toNat hpc', State.read8_setI, State.read8_setI, Nat.add_assoc]
  rw [State.read8_writeBytes_inside hm (State.getElem?_regsUpTo (s := s) hlo)]
  rw [State.read8_writeBytes_inside hm (State.getElem?_regsUpTo (s := s) hhi)]

end Sys2Proof.Machine
end

section
/-! PROOFS. LD VX, K and LD ST, VX (spec/46_timers_and_keypad.md R561, R563), and the no-ops
(spec/47_unassigned_encodings.md R590 to R593). -/

namespace Sys2Proof.Machine

variable {s : State} {x : Reg}

/-! ### LD VX, K -/

/-- R561: going back undoes the advance, whatever pc is. -/
theorem exec_ldVxK_of_no_key (h : s.key = none) : exec (.ldVxK x) s = .next s := by
  have hpc : s.pc + 2 - 2 = s.pc := by bv_omega
  rw [exec, execLdVxK, h]
  exact congrArg (fun p => Host.Outcome.next (s.setPc p)) hpc

theorem exec_ldVxK_of_key {k : Nibble} (h : s.key = some k) :
    exec (.ldVxK x) s = .next (s.withResult x (k.setWidth 8)) := by
  rw [exec, execLdVxK, h]
  rfl

/-- Settles O41, by what the latch holds. -/
theorem waitForKey : Obligations.WaitForKey := by
  refine ⟨fun _ => decodeWord_ldVxK, fun x s => ⟨exec_ldVxK_of_no_key, fun k hk => ?_⟩⟩
  refine ⟨_, exec_ldVxK_of_key hk, s.withResult_frame x _, ?_, fun _ => State.reg_withResult_of_ne⟩
  rw [State.reg_withResult_self]
  exact BitVec.toNat_setWidth_of_le (by decide)

/-! ### LD ST, VX -/

theorem exec_ldStVx (x : Reg) (s : State) :
    exec (.ldStVx x) s = .next ((s.advance.setSt (s.reg x)).setEvents
      (if (s.reg x).toNat = 0 then s.events else s.events ++ [.toneStart])) := by
  have hzero : s.reg x = 0 ↔ (s.reg x).toNat = 0 := BitVec.toNat_inj.symm
  rw [exec, execLdStVx]
  simp only [hzero]
  split <;> rfl

/-- Settles O43: for a value of 1 the countdown of the same cycle is the step from 1 to 0. -/
theorem setSoundTimer : Obligations.SetSoundTimer := by
  refine ⟨fun _ => decodeWord_ldStVx, exec_ldStVx, fun x s hs hp hd hone => ?_⟩
  have hx : s.reg x = 1 := BitVec.eq_of_toNat_eq hone
  have he := exec_ldStVx x s
  rw [hone, if_neg Nat.one_ne_zero, hx] at he
  refine ⟨_, cycle_of_decodeWord_committed hp hd he hs, ?_, ?_⟩ <;> rw [State.countTimers_def]
  · exact BitVec.eq_of_toNat_eq (countdown_toNat 1)
  · exact List.append_assoc s.events [.toneStart] [.toneRestart]

/-! ### The no-ops -/

/-- N is no function of family 8, said by listing the others. -/
theorem not_mem_functions8 : ∀ n ∈ [0x8#4, 0x9#4, 0xA#4, 0xB#4, 0xC#4, 0xD#4, 0xF#4], n ∉ functions8 := by decide

/-- Settles O44: the fallback rows decode as such, and each of them is the advance alone. -/
theorem noOpsOnlyAdvance : Obligations.NoOpsOnlyAdvance := by
  refine ⟨fun _ => decodeWord_sys, fun _ h hn => decodeWord_nop8 h (not_mem_functions8 _ hn), fun _ => decodeWord_nope,
    fun _ => decodeWord_nopf, ?_⟩
  rintro i s (⟨_, rfl⟩ | ⟨_, _, _, rfl⟩ | ⟨_, _, rfl⟩ | ⟨_, _, rfl⟩) <;> rfl

end Sys2Proof.Machine
end

section
/-! PROOFS. What each instruction leaves unchanged (spec/10_state.md R103, R120 to R122; spec/60_exceptions.md R630). -/

namespace Sys2Proof.Machine

/-- The frame of an instruction that takes `s` to `t`: each piece of state, under the condition that keeps it. -/
structure ExecFrame (i : Instr) (s t : State) : Prop where
  reg : ∀ r, i.writesReg r = false → t.reg r = s.reg r
  index : (∀ nnn, i ≠ .ldI nnn) → (∀ x, i ≠ .addI x ∧ i ≠ .ldF x ∧ i ≠ .ldMemVx x ∧ i ≠ .ldVxMem x) →
    t.i = s.i
  stack : (∀ nnn, i ≠ .call nnn) → i ≠ .ret → t.stack = s.stack ∧ t.sp = s.sp
  delay : (∀ x, i ≠ .ldDtVx x) → t.dt = s.dt
  sound : (∀ x, i ≠ .ldStVx x) → t.st = s.st ∧ t.events = s.events
  draws : (∀ x nn, i ≠ .rnd x nn) → t.draws = s.draws
  mem : (∀ x, i ≠ .ldB x ∧ i ≠ .ldMemVx x) → t.mem = s.mem
  key : t.key = s.key
  config : t.config = s.config
  redraw : s.redraw = true → t.redraw = true
  status : t.status = s.status ∨ t.status.isFaulted = true

variable {i : Instr} {s t : State} {x : Reg}

/-! ### The frames of the updates that several instructions share -/

theorem ExecFrame.of_raise (f : FaultCause) (a : Word) : ExecFrame i s (s.raise f a) := by
  constructor <;> simp [State.raise, Status.isFaulted]

theorem ExecFrame.of_setPc (w : Word) : ExecFrame i s (s.setPc w) := by
  constructor <;> simp

theorem ExecFrame.of_withResult (b : Byte) (h : ∀ r, i.writesReg r = false → r ≠ x) :
    ExecFrame i s (s.withResult x b) := by
  constructor
  case reg => exact fun r hr => State.reg_withResult_of_ne (h r hr)
  all_goals simp [State.withResult, State.advance]

theorem ExecFrame.of_withResultAndFlag (b : Byte) (f : Bool) (h : ∀ r, i.writesReg r = false → r ≠ x ∧ r ≠ 15) :
    ExecFrame i s (s.withResultAndFlag x b f) := by
  constructor
  case reg => exact fun r hr => State.reg_withResultAndFlag_of_ne (h r hr).1 (h r hr).2
  all_goals simp [State.withResultAndFlag, State.setFlag, State.withResult, State.advance]

/-! ### The frame of each instruction -/

/-- A draw changes VF, and neither DRW nor CLS clears redraw. -/
theorem execDrw_frame {y : Reg} {n : Nibble} (h : execDrw x y n s = .next t) : ExecFrame (.drw x y n) s t := by
  obtain ⟨-, rfl⟩ | ⟨-, rfl⟩ := ite_next_cases h
  · constructor <;> simp +contextual [State.setFlag, flagReg, State.advance, Instr.writesReg]
  · exact .of_raise _ _

theorem execLdB_frame (h : execLdB x s = .next t) : ExecFrame (.ldB x) s t := by
  obtain ⟨-, rfl⟩ | ⟨-, rfl⟩ := execLdB_cases h
  · rw [State.writeBytes_setMem]
    constructor <;> simp [State.advance]
  · exact .of_raise _ _

theorem execLdMemVx_frame (h : execLdMemVx x s = .next t) : ExecFrame (.ldMemVx x) s t := by
  obtain ⟨-, rfl⟩ | ⟨-, rfl⟩ := execLdMemVx_cases h
  · rw [State.writeBytes_setMem]
    constructor <;> simp [State.advance]
  · exact .of_raise _ _

theorem execLdVxMem_frame (h : execLdVxMem x s = .next t) : ExecFrame (.ldVxMem x) s t := by
  obtain ⟨-, rfl⟩ | ⟨-, rfl⟩ := execLdVxMem_cases h
  · constructor
    case reg =>
      intro r hr
      have hx : ¬ r ≤ x := of_decide_eq_false hr
      rw [State.reg_setI, State.reg_setRegs, State.getElem_regsLoaded, if_neg hx]
    all_goals simp [State.advance]
  · exact .of_raise _ _

theorem execRet_frame (h : execRet s = .next t) : ExecFrame .ret s t := by
  obtain ⟨-, rfl⟩ | ⟨_, _, -, rfl⟩ := execRet_cases h
  · exact .of_raise _ _
  · constructor <;> simp

theorem execCall_frame {nnn : Addr12} (h : execCall nnn s = .next t) : ExecFrame (.call nnn) s t := by
  obtain ⟨-, rfl⟩ | ⟨_, rfl⟩ := execCall_cases h
  · exact .of_raise _ _
  · constructor <;> simp

theorem execAddI_frame (h : execAddI x s = .next t) : ExecFrame (.addI x) s t := by
  obtain ⟨-, rfl⟩ | ⟨-, rfl⟩ := execAddI_cases h
  · exact .of_raise _ _
  · constructor <;> simp [State.advance]

theorem execLdVxK_frame (h : execLdVxK x s = .next t) : ExecFrame (.ldVxK x) s t := by
  obtain ⟨-, rfl⟩ | ⟨_, -, rfl⟩ := execLdVxK_cases h
  · exact .of_setPc _
  · exact .of_withResult _ (by simp [Instr.writesReg])

theorem execLdStVx_frame (h : execLdStVx x s = .next t) : ExecFrame (.ldStVx x) s t := by
  obtain ⟨-, rfl⟩ | ⟨-, rfl⟩ := execLdStVx_cases h <;> constructor <;> simp [State.advance, State.emit]

/-- An instruction without a fault is one of the shared updates, or an update of its own; the others have two paths. -/
theorem exec_frame (h : exec i s = .next t) : ExecFrame i s t := by
  cases i with
  | sys | nop8 | nope | nopf | jp | jpV0 => cases h; exact .of_setPc _
  | seImm | sneImm | seReg | sneReg | skp | sknp => cases h; rw [State.advance_skipIf]; exact .of_setPc _
  | ldImm | addImm | ldReg | orReg | andReg | xorReg | ldVxDt =>
    cases h; exact .of_withResult _ (by simp [Instr.writesReg])
  | addReg | subReg | subn | shr | shl => cases h; exact .of_withResultAndFlag _ _ (by simp [Instr.writesReg])
  | rnd => cases h; constructor <;> simp +contextual [State.withResult, State.takeDraw, State.advance, Instr.writesReg]
  | cls | ldI | ldF | ldDtVx => cases h; constructor <;> simp [State.advance]
  | drw => exact execDrw_frame h
  | ret => exact execRet_frame h
  | call => exact execCall_frame h
  | addI => exact execAddI_frame h
  | ldB => exact execLdB_frame h
  | ldMemVx => exact execLdMemVx_frame h
  | ldVxMem => exact execLdVxMem_frame h
  | ldVxK => exact execLdVxK_frame h
  | ldStVx => exact execLdStVx_frame h

/-! ### The obligations, read off the frame -/

/-- Settles O45, by the frame's clause of the registers. -/
theorem onlyDestinationRegistersChange : Obligations.OnlyDestinationRegistersChange :=
  fun _ _ _ r h => (exec_frame h).reg r

/-- Settles O46, by the clauses whose premise names the instructions that write. -/
theorem onlyNamedInstructionsChangeSpecialState : Obligations.OnlyNamedInstructionsChangeSpecialState := by
  intro i s t h
  have hf := exec_frame h
  exact ⟨hf.index, hf.stack, hf.delay, hf.sound, hf.draws, hf.mem⟩

/-- Settles O47, by the clauses that hold of every instruction. -/
theorem noInstructionWritesHostSide : Obligations.NoInstructionWritesHostSide := by
  intro i s t h
  have hf := exec_frame h
  exact ⟨hf.key, hf.config, hf.redraw, hf.status⟩

end Sys2Proof.Machine
end

section
/-! PROOFS. What no instruction reads: the sound timer, redraw and the events (spec/10_state.md R117, R120, R126), and, but for
DRW, the pixels (R119). -/

namespace Sys2Proof.Machine

/-- `s` with other values of the pieces of state that no instruction but DRW reads. -/
def State.withUnread (s : State) (fb : Framebuffer) (b : Byte) (r : Bool) (es : List Event) : State :=
  { s with fb := fb, st := b, redraw := r, events := es }

variable {i : Instr} {s t : State} {x : Reg} {fb : Framebuffer} {b : Byte} {r : Bool} {es : List Event}

theorem State.skipIf_advance_withUnread (c : Bool) :
    (s.withUnread fb b r es).advance.skipIf c = (s.advance.skipIf c).withUnread fb b r es := by
  rw [State.advance_skipIf, State.advance_skipIf]
  rfl

theorem State.writeBytes_withUnread (a : Nat) (bs : List Byte) :
    (s.withUnread fb b r es).writeBytes a bs = (s.writeBytes a bs).withUnread fb b r es := by
  induction bs generalizing s a with
  | nil => rfl
  | cons c bs ih => exact ih (s := s.write8 a c) (a + 1)

/-- An instruction that writes none of them does the same whatever they hold, and leaves them as they are. -/
theorem exec_withUnread (h : exec i s = .next t) (hcls : i ≠ .cls) (hdrw : ∀ x y n, i ≠ .drw x y n)
    (hst : ∀ x, i ≠ .ldStVx x) :
    exec i (s.withUnread fb b r es) = .next (t.withUnread fb b r es) := by
  cases i with
  | cls => exact absurd rfl hcls
  | drw x y n => exact absurd rfl (hdrw x y n)
  | ldStVx x => exact absurd rfl (hst x)
  | sys | nop8 | nope | nopf | jp | jpV0 | ldI | ldF | ldVxDt | ldDtVx => cases h; rfl
  | ldImm | addImm | ldReg | orReg | andReg | xorReg | addReg | subReg | shr | subn | shl | rnd => cases h; rfl
  | seImm | sneImm | seReg | sneReg | skp | sknp => cases h; exact congrArg _ (State.skipIf_advance_withUnread _)
  | ret =>
    obtain ⟨h0, rfl⟩ | ⟨h0, w, hw, rfl⟩ := execRet_cases h
    · exact exec_ret_of_empty_stack (s := s.withUnread fb b r es) h0
    · exact exec_ret_of_slot (s := s.withUnread fb b r es) h0 hw
  | call nnn =>
    obtain ⟨h16, rfl⟩ | ⟨h16, rfl⟩ := execCall_cases h
    · exact exec_call_of_full (s := s.withUnread fb b r es) nnn h16
    · exact exec_call_of_room (s := s.withUnread fb b r es) nnn h16
  | addI x =>
    obtain ⟨hi, rfl⟩ | ⟨hi, rfl⟩ := execAddI_cases h
    · exact if_pos hi
    · exact if_neg hi
  | ldB x =>
    obtain ⟨hf, rfl⟩ | ⟨hf, rfl⟩ := execLdB_cases h
    · exact (if_pos hf).trans (congrArg _ (State.writeBytes_withUnread (s := s.advance) _ _))
    · exact if_neg hf
  | ldMemVx x =>
    obtain ⟨hf, rfl⟩ | ⟨hf, rfl⟩ := execLdMemVx_cases h
    · exact (if_pos hf).trans (congrArg (fun u => Host.Outcome.next (State.setI u (s.indexAfterTransfer x)))
        (State.writeBytes_withUnread (s := s.advance) _ _))
    · exact if_neg hf
  | ldVxMem x =>
    obtain ⟨hf, rfl⟩ | ⟨hf, rfl⟩ := execLdVxMem_cases h
    · exact if_pos hf
    · exact if_neg hf
  | ldVxK x =>
    obtain ⟨hk, rfl⟩ | ⟨k, hk, rfl⟩ := execLdVxK_cases h
    · rw [exec, execLdVxK, show (s.withUnread fb b r es).key = none from hk]
      rfl
    · exact exec_ldVxK_of_key (s := s.withUnread fb b r es) hk

/-- Such an instruction keeps them: with the values that `s` has, the outcome is `t` itself. -/
theorem exec_keeps_unread (h : exec i s = .next t) (hcls : i ≠ .cls) (hdrw : ∀ x y n, i ≠ .drw x y n)
    (hst : ∀ x, i ≠ .ldStVx x) : t = t.withUnread s.fb s.st s.redraw s.events := by
  have h' := exec_withUnread (fb := s.fb) (b := s.st) (r := s.redraw) (es := s.events) h hcls hdrw hst
  exact Host.Outcome.next.inj (h.symm.trans h')

/-! ### The pixels -/

/-- Only DRW observes a pixel; CLS and LD ST, which write what no instruction reads, do the same over any framebuffer. -/
theorem exec_over_framebuffer (fb : Framebuffer) (h : exec i s = .next t) (hdrw : ∀ x y n, i ≠ .drw x y n) :
    ∃ fb', exec i { s with fb := fb } = .next { t with fb := fb' } := by
  by_cases hcls : i = .cls
  · subst hcls
    cases h
    exact ⟨Framebuffer.blank, rfl⟩
  by_cases hst : ∃ x, i = .ldStVx x
  · obtain ⟨x, rfl⟩ := hst
    obtain ⟨h0, rfl⟩ | ⟨h0, rfl⟩ := execLdStVx_cases h
    · exact ⟨fb, if_pos h0⟩
    · exact ⟨fb, if_neg h0⟩
  · have hst' := not_exists.mp hst
    have hkeep : { t with fb := fb } = t.withUnread fb s.st s.redraw s.events :=
      congrArg (fun u : State => { u with fb := fb }) (exec_keeps_unread h hcls hdrw hst')
    exact ⟨fb, hkeep ▸ exec_withUnread h hcls hdrw hst'⟩

/-- R119, R534: over other pixels a draw differs in the framebuffer and in VF alone. -/
theorem execDrw_over_framebuffer {x y : Reg} {n : Nibble} (fb : Framebuffer) (h : exec (.drw x y n) s = .next t) :
    ∃ u, exec (.drw x y n) { s with fb := fb } = .next u ∧ u = { t with fb := u.fb, v := u.v } := by
  obtain ⟨hf, rfl⟩ | ⟨hf, rfl⟩ := ite_next_cases h
  · exact ⟨_, if_pos hf, rfl⟩
  · exact ⟨_, if_neg hf, rfl⟩

/-- Settles O49; that the other registers agree too is the frame of the two draws. -/
theorem pixelsAreObservedOnlyThroughVF : Obligations.PixelsAreObservedOnlyThroughVF := by
  intro i s t fb h
  refine ⟨exec_over_framebuffer fb h, ?_, ?_⟩
  · rintro x y n rfl
    obtain ⟨u, hu, hsame⟩ := execDrw_over_framebuffer fb h
    refine ⟨u, hu, hsame, fun r hr => ?_⟩
    have hw : (Instr.drw x y n).writesReg r = false := beq_false_of_ne hr
    exact ((exec_frame hu).reg r hw).trans ((exec_frame h).reg r hw).symm
  · cases i with
    | cls | drw => exact .inl fun _ => ⟨nofun, nofun⟩
    | _ => exact .inr (exec_fb h nofun nofun)

/-! ### Sound, redraw and the events -/

/-- Settles O50: three instructions write one of these, and none reads one. -/
theorem noInstructionReadsSoundRedrawEvents : Obligations.NoInstructionReadsSoundRedrawEvents := by
  intro i s t b r es h
  by_cases hcls : i = .cls
  · subst hcls
    cases h
    exact ⟨b, true, es, rfl⟩
  by_cases hdrw : ∃ x y n, i = .drw x y n
  · obtain ⟨x, y, n, rfl⟩ := hdrw
    obtain ⟨hf, rfl⟩ | ⟨hf, rfl⟩ := ite_next_cases h
    · exact ⟨b, true, es, if_pos hf⟩
    · exact ⟨b, r, es, if_neg hf⟩
  by_cases hst : ∃ x, i = .ldStVx x
  · obtain ⟨x, rfl⟩ := hst
    obtain ⟨h0, rfl⟩ | ⟨h0, rfl⟩ := execLdStVx_cases h
    · exact ⟨s.reg x, r, es, if_pos h0⟩
    · exact ⟨s.reg x, r, es ++ [Event.toneStart], if_neg h0⟩
  · have hdrw' : ∀ x y n, i ≠ .drw x y n := fun x y n e => hdrw ⟨x, y, n, e⟩
    have hkeep : { t with st := b, redraw := r, events := es } = t.withUnread s.fb b r es :=
      congrArg (fun u : State => { u with st := b, redraw := r, events := es })
        (exec_keeps_unread h hcls hdrw' (not_exists.mp hst))
    exact ⟨b, r, es, hkeep ▸ exec_withUnread h hcls hdrw' (not_exists.mp hst)⟩

end Sys2Proof.Machine
end

section
/-! PROOFS. How an instruction ends: by a fault whose condition holds, or committed, with pc where R411 says
(spec/40_cycle.md R408, R411; spec/60_exceptions.md R600, R610). -/

namespace Sys2Proof.Machine

/-- R411: where pc stands in `t`, after the instruction `i` has committed from `s`. -/
def PcAfter (i : Instr) (s t : State) : Prop :=
  (i = .ret ∧ ∃ hs : 0 < s.sp.val, s.stack[s.sp.val - 1] = some t.pc) ∨
  (∃ nnn, (i = .jp nnn ∨ i = .call nnn) ∧ t.pc.toNat = nnn.toNat) ∨
  (∃ nnn, i = .jpV0 nnn ∧ t.pc.toNat = nnn.toNat + (s.reg 0).toNat) ∨
  (s.TakesSkip i ∧ t.pc.toNat = s.pc.toNat + 4) ∨
  (∃ x, i = .ldVxK x ∧ s.key = none ∧ t.pc = s.pc) ∨
  ((∀ nnn, i ≠ .jp nnn ∧ i ≠ .call nnn ∧ i ≠ .jpV0 nnn) ∧ i ≠ .ret ∧ ¬ s.TakesSkip i ∧
    (∀ x, i = .ldVxK x → s.key ≠ none) ∧ t.pc.toNat = s.pc.toNat + 2)

/-- An instruction at `s` ends in `t`: with a fault, and nothing else changed, or committed. -/
def EndsIn (i : Instr) (s t : State) : Prop :=
  (∃ f a, t = s.raise f a ∧ s.FaultsWith i f a) ∨ (t.status = s.status ∧ PcAfter i s t)

variable {i : Instr} {s t : State} {x : Reg}

/-! ### The ways to end -/

/-- An instruction that does not move pc on its own: below the fetch limit the advance does not wrap. -/
theorem EndsIn.of_advance (hp : s.pc.toNat < 4094) (hstatus : t.status = s.status) (hpc : t.pc = s.pc + 2)
    (hwait : ∀ x, i = .ldVxK x → s.key ≠ none := by exact nofun) (hskip : ¬ s.TakesSkip i := by exact id)
    (hret : i ≠ .ret := by exact nofun)
    (hjump : ∀ nnn, i ≠ .jp nnn ∧ i ≠ .call nnn ∧ i ≠ .jpV0 nnn := by exact fun _ => ⟨nofun, nofun, nofun⟩) :
    EndsIn i s t := by
  have hnum : t.pc.toNat = s.pc.toNat + 2 := by rw [hpc]; bv_omega
  exact .inr ⟨hstatus, .inr (.inr (.inr (.inr (.inr ⟨hjump, hret, hskip, hwait, hnum⟩))))⟩

/-- A skip, on a condition that is the one of R441 to R446. -/
theorem EndsIn.of_skip (hp : s.pc.toNat < 4094) {c : Bool} (hc : c = true ↔ s.TakesSkip i)
    (hwait : ∀ x, i ≠ .ldVxK x := by exact nofun) (hret : i ≠ .ret := by exact nofun)
    (hjump : ∀ nnn, i ≠ .jp nnn ∧ i ≠ .call nnn ∧ i ≠ .jpV0 nnn := by exact fun _ => ⟨nofun, nofun, nofun⟩) :
    EndsIn i s (s.advance.skipIf c) := by
  rw [State.advance_skipIf]
  cases c with
  | false =>
    have hskip : ¬ s.TakesSkip i := fun h => Bool.false_ne_true (hc.mpr h)
    exact .of_advance hp rfl rfl (fun x h => absurd h (hwait x)) hskip hret hjump
  | true =>
    have hnum : (s.setPc (s.pc + 4)).pc.toNat = s.pc.toNat + 4 := by rw [State.setPc_pc]; bv_omega
    exact .inr ⟨rfl, .inr (.inr (.inr (.inl ⟨hc.mp rfl, hnum⟩)))⟩

theorem Byte.bne_iff_toNat_ne (a b : Byte) : (a != b) = true ↔ a.toNat ≠ b.toNat :=
  bne_iff_ne.trans (not_congr BitVec.toNat_inj.symm)

theorem State.not_keyMatches_iff (s : State) (x : Reg) : (!s.keyMatches x) = true ↔ ¬ s.HoldsKey x := by
  rw [← State.keyMatches_iff, Bool.not_eq_true', Bool.not_eq_true]

theorem execRet_endsIn (hp : s.pc.toNat < 4094) (h : execRet s = .next t) : EndsIn .ret s t := by
  obtain ⟨h0, rfl⟩ | ⟨h0, w, hw, rfl⟩ := execRet_cases h
  · exact .inl ⟨_, _, rfl, rfl, hp, h0, rfl⟩
  · exact .inr ⟨rfl, .inl ⟨rfl, h0, hw⟩⟩

theorem execCall_endsIn {nnn : Addr12} (hp : s.pc.toNat < 4094) (h : execCall nnn s = .next t) : EndsIn (.call nnn) s t := by
  obtain ⟨h16, rfl⟩ | ⟨_, rfl⟩ := execCall_cases h
  · exact .inl ⟨_, _, rfl, rfl, hp, h16, nnn, rfl⟩
  · exact .inr ⟨rfl, .inr (.inl ⟨nnn, .inr rfl, absoluteAddress_toNat nnn⟩)⟩

theorem execLdVxK_endsIn (hp : s.pc.toNat < 4094) (h : execLdVxK x s = .next t) : EndsIn (.ldVxK x) s t := by
  obtain ⟨hk, rfl⟩ | ⟨k, hk, rfl⟩ := execLdVxK_cases h
  · have hpc : s.pc + 2 - 2 = s.pc := by bv_omega
    exact .inr ⟨rfl, .inr (.inr (.inr (.inr (.inl ⟨x, rfl, hk, hpc⟩))))⟩
  · exact .of_advance hp rfl rfl (fun _ _ => by rw [hk]; exact nofun)

theorem execAddI_endsIn (hp : s.pc.toNat < 4094) (h : execAddI x s = .next t) : EndsIn (.addI x) s t := by
  obtain ⟨hi, rfl⟩ | ⟨-, rfl⟩ := execAddI_cases h
  · exact .inl ⟨_, _, rfl, rfl, hp, x, rfl, hi⟩
  · exact .of_advance hp rfl rfl

theorem execLdStVx_endsIn (hp : s.pc.toNat < 4094) (h : execLdStVx x s = .next t) : EndsIn (.ldStVx x) s t := by
  obtain ⟨-, rfl⟩ | ⟨-, rfl⟩ := execLdStVx_cases h <;>
    exact .of_advance hp rfl rfl

/-- A range of one byte or more that does not fit reaches 4096. -/
theorem State.reaches_of_not_accessFits {n : Nat} (h : ¬ s.accessFits (n + 1) = true) : 4096 ≤ s.i.toNat + n := by
  rw [State.accessFits_iff] at h
  omega

theorem execLdB_endsIn (hp : s.pc.toNat < 4094) (h : execLdB x s = .next t) : EndsIn (.ldB x) s t := by
  obtain ⟨-, rfl⟩ | ⟨hf, rfl⟩ := execLdB_cases h
  · rw [State.writeBytes_setMem]
    exact .of_advance hp rfl rfl
  · exact .inl ⟨_, _, rfl, rfl, hp, .inr (.inl ⟨x, rfl, State.reaches_of_not_accessFits hf⟩)⟩

theorem execLdMemVx_endsIn (hp : s.pc.toNat < 4094) (h : execLdMemVx x s = .next t) : EndsIn (.ldMemVx x) s t := by
  obtain ⟨-, rfl⟩ | ⟨hf, rfl⟩ := execLdMemVx_cases h
  · rw [State.writeBytes_setMem]
    exact .of_advance hp rfl rfl
  · exact .inl ⟨_, _, rfl, rfl, hp, .inr (.inr ⟨x, .inl rfl, State.reaches_of_not_accessFits hf⟩)⟩

theorem execLdVxMem_endsIn (hp : s.pc.toNat < 4094) (h : execLdVxMem x s = .next t) : EndsIn (.ldVxMem x) s t := by
  obtain ⟨-, rfl⟩ | ⟨hf, rfl⟩ := execLdVxMem_cases h
  · exact .of_advance hp rfl rfl
  · exact .inl ⟨_, _, rfl, rfl, hp, .inr (.inr ⟨x, .inr rfl, State.reaches_of_not_accessFits hf⟩)⟩

theorem execDrw_endsIn {y : Reg} {n : Nibble} (hp : s.pc.toNat < 4094) (h : execDrw x y n s = .next t) :
    EndsIn (.drw x y n) s t := by
  obtain ⟨-, rfl⟩ | ⟨hf, rfl⟩ := ite_next_cases h
  · exact .of_advance hp rfl rfl
  · rw [State.accessFits_iff] at hf
    exact .inl ⟨_, _, rfl, rfl, hp, .inl ⟨x, y, n, rfl, by omega, by omega⟩⟩

/-- Every instruction ends in one of the two ways. -/
theorem exec_endsIn (hp : s.pc.toNat < 4094) (h : exec i s = .next t) : EndsIn i s t := by
  cases i with
  | cls | sys | nop8 | nope | nopf | ldI | ldF | ldVxDt | ldDtVx =>
    cases h; exact .of_advance hp rfl rfl
  | ldImm | addImm | ldReg | orReg | andReg | xorReg | addReg | subReg | shr | subn | shl | rnd =>
    cases h; exact .of_advance hp rfl rfl
  | jp nnn => cases h; exact .inr ⟨rfl, .inr (.inl ⟨nnn, .inl rfl, absoluteAddress_toNat nnn⟩)⟩
  | jpV0 nnn => cases h; exact .inr ⟨rfl, .inr (.inr (.inl ⟨nnn, rfl, s.offsetTarget_toNat nnn⟩))⟩
  | seImm x nn =>
    cases h; exact .of_skip hp (Byte.beq_iff_toNat_eq ..)
  | seReg x y =>
    cases h; exact .of_skip hp (Byte.beq_iff_toNat_eq ..)
  | sneImm x nn =>
    cases h; exact .of_skip hp (Byte.bne_iff_toNat_ne ..)
  | sneReg x y =>
    cases h; exact .of_skip hp (Byte.bne_iff_toNat_ne ..)
  | skp x => cases h; exact .of_skip hp (s.keyMatches_iff x)
  | sknp x => cases h; exact .of_skip hp (s.not_keyMatches_iff x)
  | ret => exact execRet_endsIn hp h
  | call => exact execCall_endsIn hp h
  | ldVxK => exact execLdVxK_endsIn hp h
  | addI => exact execAddI_endsIn hp h
  | ldStVx => exact execLdStVx_endsIn hp h
  | ldB => exact execLdB_endsIn hp h
  | ldMemVx => exact execLdMemVx_endsIn hp h
  | ldVxMem => exact execLdVxMem_endsIn hp h
  | drw => exact execDrw_endsIn hp h

end Sys2Proof.Machine
end

section
/-! PROOFS. The faults of a cycle and its end (spec/40_cycle.md R408, R411; spec/60_exceptions.md R600, R610), and where a cycle
happens (spec/40_cycle.md R400; spec/60_exceptions.md R612, R653, R657). -/

namespace Sys2Proof.Machine

variable {i : Instr} {s t : State}

/-! ### Cycles -/

/-- R408: a fault is not followed by the countdown. -/
theorem cycle_of_exec_raise {f : FaultCause} {a : Word} (hp : s.pc.toNat < 4094)
    (he : exec (decodeWord s.fetchWord) s = .next (s.raise f a)) : cycle s = .next (s.raise f a) := by
  rw [cycle_exec hp, he]
  rfl

/-- A cycle outside Faulted: a fault, with nothing else changed, or an instruction that commits and the countdown. -/
theorem cycle_endsIn (hs : s.status.isFaulted = false) (h : cycle s = .next t) :
    (∃ f a, t = s.raise f a ∧ s.FaultsWith (decodeWord s.fetchWord) f a) ∨
    (s.pc.toNat < 4094 ∧ ∃ u, exec (decodeWord s.fetchWord) s = .next u ∧ t = u.countTimers ∧
      t.status = s.status ∧ PcAfter (decodeWord s.fetchWord) s u) := by
  obtain ⟨hp, rfl⟩ | ⟨hp, u, hu, rfl⟩ := cycle_cases h
  · exact .inl ⟨_, _, rfl, rfl, hp⟩
  · obtain ⟨f, a, rfl, hfault⟩ | ⟨hstatus, hpc⟩ := exec_endsIn hp hu
    · exact .inl ⟨f, a, rfl, hfault⟩
    · have hend : u.endCycle = u.countTimers := State.endCycle_of_not_isFaulted (hstatus ▸ hs)
      refine .inr ⟨hp, u, hu, hend, ?_, hpc⟩
      rw [hend, State.countTimers_def]
      exact hstatus

/-- Settles O10: a cycle that ends in Faulted is not one that committed. -/
theorem faultingCycleCommitsNothing : Obligations.FaultingCycleCommitsNothing := by
  intro s t hs h ht
  obtain hfault | ⟨-, u, -, -, hstatus, -⟩ := cycle_endsIn hs h
  · exact hfault
  · rw [hstatus, hs] at ht
    cases ht

/-- Settles O13: the countdown leaves pc, and a fault is no committed cycle. -/
theorem pcAfterCommittedCycle : Obligations.PcAfterCommittedCycle := by
  intro s t hs h ht
  obtain ⟨f, a, rfl, -⟩ | ⟨-, u, -, rfl, -, hpc⟩ := cycle_endsIn hs h
  · cases ht
  · rw [State.countTimers_def]
    exact hpc

/-! ### The conditions of the faults -/

/-- R600: under the condition of a fault, below the fetch limit, the instruction raises it. -/
theorem exec_raises_of_faultsWith {f : FaultCause} {a : Word} (h : s.FaultsWith i f a) (hf : f ≠ .outOfBoundsFetch) :
    s.pc.toNat < 4094 ∧ exec i s = .next (s.raise f a) := by
  cases f with
  | outOfBoundsFetch => exact absurd rfl hf
  | stackOverflow =>
    obtain ⟨rfl, hp, h16, nnn, rfl⟩ := h
    exact ⟨hp, exec_call_of_full nnn h16⟩
  | stackUnderflow =>
    obtain ⟨rfl, hp, h0, rfl⟩ := h
    exact ⟨hp, exec_ret_of_empty_stack h0⟩
  | memoryOutOfBounds =>
    obtain ⟨rfl, hp, ⟨x, y, n, rfl, hn, hr⟩ | ⟨x, rfl, hr⟩ | ⟨x, rfl | rfl, hr⟩⟩ := h
    · exact ⟨hp, exec_drw_of_beyond hn hr⟩
    · exact ⟨hp, exec_ldB_of_beyond hr⟩
    · exact ⟨hp, exec_ldMemVx_of_beyond hr⟩
    · exact ⟨hp, exec_ldVxMem_of_beyond hr⟩
  | indexOverflow =>
    obtain ⟨rfl, hp, x, rfl, hi⟩ := h
    exact ⟨hp, exec_addI_of_lt hi⟩

/-- Settles O11: the fetch fault is the cycle's own, the others are the instruction's. -/
theorem faultConditionRaisesFault : Obligations.FaultConditionRaisesFault := by
  intro s f a hs h
  by_cases hf : f = .outOfBoundsFetch
  · subst hf
    obtain ⟨rfl, hp⟩ := h
    exact cycle_of_fetch_beyond_limit hp
  · obtain ⟨hp, he⟩ := exec_raises_of_faultsWith h hf
    exact cycle_of_exec_raise hp he

/-! ### Where a cycle happens -/

theorem Status.isFaulted_ne {x : Status} (h : x.isFaulted = true) : x ≠ .stopped ∧ x ≠ .running ∧ x ≠ .paused := by
  cases x with
  | stopped | running | paused => cases h
  | faulted => exact ⟨nofun, nofun, nofun⟩

theorem Status.allowsStep_of_stopped_or_paused {x : Status} (h : x = .stopped ∨ x = .paused) : x.allowsStep = true := by
  obtain rfl | rfl := h <;> rfl

theorem Status.not_allowsStep_of_isFaulted {x : Status} (h : x.isFaulted = true) : x.allowsStep = false := by
  cases x with
  | stopped | running | paused => cases h
  | faulted => rfl

/-- R653, R657: outside Stopped and Paused a host's step() changes nothing. -/
theorem hostStep_not_allowed (h : s.status.allowsStep = false) : hostStep s = .next (s, .done) := by
  rw [hostStep, h]
  rfl

@[simp] theorem State.writeBytes_status (s : State) (a : Nat) (bs : List Byte) : (s.writeBytes a bs).status = s.status := by
  rw [State.writeBytes_setMem, State.setMem_status]

/-- R612: in Faulted no request but reset changes the status. -/
theorem transact_status_of_isFaulted {r : Request} {y : Reply} (hs : s.status.isFaulted = true) (hr : r ≠ .reset)
    (h : transact r s = .next (t, y)) : t.status = s.status := by
  obtain ⟨hstopped, hrunning, hpaused⟩ := Status.isFaulted_ne hs
  cases r with
  | reset => exact absurd rfl hr
  | setKey | clearKey | readFramebuffer | observeRedraw | readEvents | readStatus => cases h; rfl
  | run => cases h; rw [if_neg hstopped]
  | pause => cases h; rw [if_neg hrunning]
  | resume => cases h; rw [if_neg hpaused]
  | stop => cases h; rw [if_neg (by simp [hrunning, hpaused])]
  | step =>
    have hidle := hostStep_not_allowed (Status.not_allowsStep_of_isFaulted hs)
    cases hidle.symm.trans h; rfl
  | loadProgram => obtain ⟨-, ⟨-, rfl, -⟩ | ⟨-, rfl, -⟩⟩ := hostLoadProgram_cases h <;> simp

/-- Settles O12, by status. -/
theorem cyclesHappenOnlyWhereAllowed : Obligations.CyclesHappenOnlyWhereAllowed := by
  refine fun s => ⟨step_running, step_idle, fun hs t => hostStep_allowed (Status.allowsStep_of_stopped_or_paused hs),
    fun hs => hostStep_not_allowed ?_, fun hs r t y hr h => transact_status_of_isFaulted hs hr h⟩
  obtain h | h := hs
  · rw [h]; rfl
  · exact Status.not_allowsStep_of_isFaulted h

/-- The decoded instruction of a state is the one that its two bytes decode to. -/
theorem decodeWord_fetchWord_of_decode (h : decode [s.read8 s.pc.toNat, s.read8 (s.pc.toNat + 1)] = .ok (i, [])) :
    decodeWord s.fetchWord = i := by
  rw [decode_cons_cons] at h
  injection h with h
  exact congrArg Prod.fst h

/-- Settles O8: a cycle below the fetch limit is the instruction and the end of its cycle. -/
theorem stepRunsDecodedInstruction : Obligations.StepRunsDecodedInstruction := by
  intro s i hp hd
  obtain rfl := decodeWord_fetchWord_of_decode hd
  have hcycle := cycle_exec hp
  refine ⟨fun hs => ?_, fun hs => ?_⟩
  · rw [step_running hs, hcycle]
    cases exec (decodeWord s.fetchWord) s <;> rfl
  · rw [transact, hostStep, if_pos (Status.allowsStep_of_stopped_or_paused hs), hcycle]
    cases exec (decodeWord s.fetchWord) s <;> rfl

end Sys2Proof.Machine
end

section
/-! PROOFS. The invariant of the machine (spec/10_state.md R113, R115; spec/41_control_transfer.md R420), kept by every
instruction, cycle, step and request, and what follows for the reachable states. -/

namespace Sys2Proof.Machine

variable {i : Instr} {s t : State}

/-! ### Memory in canonical form -/

/-- A transfer whose range fits writes inside the address space. -/
theorem State.writeBytes_wf_of_fits {n : Nat} {bs : List Byte} (hm : Memory.wf s.config.fontData s.mem)
    (hf : s.accessFits (n + 1) = true) (hlen : bs.length = n + 1) :
    Memory.wf s.config.fontData (s.writeBytes s.i.toNat bs).mem := by
  have hrange := (s.accessFits_iff _).mp hf
  exact State.writeBytes_wf hm (by rw [hlen, memSize]; omega)

/-- Only LD B and LD [I] write memory, where their range fits. -/
theorem exec_mem_wf (h : exec i s = .next t) (hm : Memory.wf s.config.fontData s.mem) :
    Memory.wf t.config.fontData t.mem := by
  have hframe := exec_frame h
  rw [hframe.config]
  cases i with
  | ldB x =>
    obtain ⟨hf, rfl⟩ | ⟨-, rfl⟩ := execLdB_cases h
    · exact State.writeBytes_wf_of_fits (s := s.advance) hm hf rfl
    · exact hm
  | ldMemVx x =>
    obtain ⟨hf, rfl⟩ | ⟨-, rfl⟩ := execLdMemVx_cases h
    · exact State.writeBytes_wf_of_fits (s := s.advance) hm hf (s.length_regsUpTo x)
    · exact hm
  | _ => rw [hframe.mem fun _ => ⟨nofun, nofun⟩]; exact hm

/-! ### The call stack -/

/-- R115: every slot below sp is occupied, and every saved address is one that a CALL can save. -/
def State.StackOk (s : State) : Prop :=
  (∀ j : Fin 16, j.val < s.sp.val → s.stack[j] ≠ none) ∧
  ∀ j : Fin 16, ∀ w ∈ s.stack[j], 2 ≤ w.toNat ∧ w.toNat ≤ 4095

/-- A push of the address after a CALL that was fetched. -/
theorem execCall_stackOk {nnn : Addr12} (hp : s.pc.toNat < 4094) (h : execCall nnn s = .next t) (hs : s.StackOk) : t.StackOk := by
  obtain ⟨-, rfl⟩ | ⟨hroom, rfl⟩ := execCall_cases h
  · exact hs
  obtain ⟨hbelow, hsaved⟩ := hs
  have hslot : ∀ j : Fin 16, (s.stack.set s.sp.val (some (s.pc + 2)))[j] =
      if s.sp.val = j.val then some (s.pc + 2) else s.stack[j] := fun j => Vector.getElem_set ..
  refine ⟨fun j hj => ?_, fun j w hw => ?_⟩
  · have hj' : j.val < s.sp.val + 1 := hj
    rw [State.setPc_stack, State.setStack_stack, hslot]
    split
    · exact nofun
    · exact hbelow j (by omega)
  · rw [State.setPc_stack, State.setStack_stack, hslot] at hw
    split at hw
    · cases hw; bv_omega
    · exact hsaved j w hw

/-- Only CALL and RET touch the stack; a RET leaves the slots and lowers sp. -/
theorem exec_stackOk (hp : s.pc.toNat < 4094) (h : exec i s = .next t) (hs : s.StackOk) : t.StackOk := by
  cases i with
  | call nnn => exact execCall_stackOk hp h hs
  | ret =>
    obtain ⟨-, rfl⟩ | ⟨_, _, -, rfl⟩ := execRet_cases h
    · exact hs
    · exact ⟨fun j hj => hs.1 j (Nat.lt_of_lt_of_le hj (Nat.sub_le ..)), hs.2⟩
  | _ =>
    obtain ⟨hstack, hsp⟩ := (exec_frame h).stack nofun nofun
    rwa [State.StackOk, hstack, hsp]

/-! ### pc -/

/-- R113: the largest target is that of JP V0, 4095 + 255. -/
theorem pcAfter_le (hp : s.pc.toNat < 4094) (hs : s.StackOk) (h : PcAfter i s t) : t.pc.toNat ≤ 4350 := by
  obtain ⟨-, h0, hw⟩ | ⟨nnn, -, hpc⟩ | ⟨nnn, -, hpc⟩ | ⟨-, hpc⟩ | ⟨-, -, -, hpc⟩ | ⟨-, -, -, -, hpc⟩ := h
  · have hslot : s.sp.val - 1 < 16 := by omega
    have := (hs.2 ⟨s.sp.val - 1, hslot⟩ t.pc hw).2
    omega
  · have := nnn.isLt; omega
  · have := nnn.isLt; have := (s.reg 0).isLt; omega
  · omega
  · rw [hpc]; omega
  · omega

/-! ### The invariant -/

theorem State.inv_iff : s.Inv ↔ Memory.wf s.config.fontData s.mem ∧ s.StackOk ∧ s.pc.toNat ≤ 4350 := by
  unfold State.Inv State.StackOk
  tauto

/-- A cycle outside Faulted keeps the invariant: a fault changes status alone, and the countdown the timers and the events. -/
theorem cycle_keeps_inv (hs : s.status.isFaulted = false) (hinv : s.Inv) (h : cycle s = .next t) : t.Inv := by
  obtain ⟨f, a, rfl, -⟩ | ⟨hp, u, hu, rfl, -, hpc⟩ := cycle_endsIn hs h
  · exact hinv
  · obtain ⟨hm, hstack, -⟩ := State.inv_iff.mp hinv
    have hu' : u.Inv := State.inv_iff.mpr ⟨exec_mem_wf hu hm, exec_stackOk hp hu hstack, pcAfter_le hp hstack hpc⟩
    rw [State.countTimers_def]
    exact hu'

/-- Settles O53: a step is nothing, or a cycle while Running. -/
theorem stepKeepsInvariant : Obligations.StepKeepsInvariant := by
  intro s t hinv h
  obtain ⟨-, rfl⟩ | ⟨hs, hcycle⟩ := step_cases h
  · exact hinv
  · exact cycle_keeps_inv (by rw [hs]; rfl) hinv hcycle

/-- Settles O52: no memory is listed, the stack is empty, pc is 512. -/
theorem resetHasInvariant : Obligations.ResetHasInvariant := by
  refine fun c k n => ⟨Memory.wf_nil _, fun j hj => absurd hj (Nat.not_lt_zero _), fun j w hw => ?_,
    (by decide : (512 : Word).toNat ≤ 4350)⟩
  simp [State.reset] at hw

/-- R653: a host's step() is nothing, or a cycle in Stopped or Paused. -/
theorem hostStep_keeps_inv {y : Reply} (hinv : s.Inv) (h : hostStep s = .next (t, y)) : t.Inv := by
  cases hs : s.status.allowsStep with
  | false =>
    cases (hostStep_not_allowed hs).symm.trans h
    exact hinv
  | true =>
    have hnf : s.status.isFaulted = false := by
      by_contra hf
      rw [Status.not_allowsStep_of_isFaulted (Bool.not_eq_false _ ▸ hf)] at hs
      cases hs
    rw [hostStep, if_pos hs] at h
    cases hc : cycle s with
    | next u =>
      rw [hc] at h
      cases h
      exact cycle_keeps_inv hnf hinv hc
    | fault | refused => rw [hc] at h; cases h

/-- Settles O54, by request: reset starts anew, a load writes from 512 up to 4095 at most, step() is a cycle, and the others leave
what the invariant speaks of. -/
theorem hostRequestsKeepInvariant : Obligations.HostRequestsKeepInvariant := by
  intro r s t y hinv h
  cases r with
  | setKey | clearKey | readFramebuffer | observeRedraw | readEvents | readStatus => cases h; exact hinv
  | run | pause | resume | stop => cases h; split <;> exact hinv
  | step => exact hostStep_keeps_inv hinv h
  | reset =>
    obtain ⟨-, rfl, -⟩ := hostReset_cases h
    exact resetHasInvariant s.config s.key s.draws
  | loadProgram bytes =>
    obtain ⟨-, ⟨-, rfl, -⟩ | ⟨hlen, rfl, -⟩⟩ := hostLoadProgram_cases h
    · exact hinv
    · obtain ⟨hm, hrest⟩ := hinv
      have hm' := State.writeBytes_wf (a := programOrigin) (bs := bytes) hm
        (by rw [programMax] at hlen; rw [programOrigin, memSize]; omega)
      rw [State.writeBytes_setMem]
      exact ⟨hm', hrest⟩

/-- Settles O55, by induction on how the state was reached. -/
theorem reachableStatesHaveInvariant : Obligations.ReachableStatesHaveInvariant := by
  intro s h
  induction h with
  | start c k n => exact resetHasInvariant c k n
  | step _ hstep ih => exact stepKeepsInvariant _ _ ih hstep
  | host r y _ hhost ih => exact hostRequestsKeepInvariant r _ _ y ih hhost

/-! ### No step is refused or stops by a named fault -/

theorem exists_ite_next (c : Prop) [Decidable c] (u u' : State) :
    ∃ t, (if c then .next u else .next u' : Host.Outcome State Fault Refusal) = .next t := by
  split <;> exact ⟨_, rfl⟩

/-- Only RET needs the stack to be in order: the slot below sp is occupied. -/
theorem exec_has_next (i : Instr) (hs : s.StackOk) : ∃ t, exec i s = .next t := by
  cases i with
  | ret =>
    rcases Nat.eq_zero_or_pos s.sp.val with h0 | h0
    · exact ⟨_, exec_ret_of_empty_stack h0⟩
    · have hslot : s.sp.val - 1 < 16 := by omega
      obtain ⟨w, hw⟩ := Option.ne_none_iff_exists'.mp (hs.1 ⟨s.sp.val - 1, hslot⟩ (Nat.sub_one_lt_of_lt h0))
      exact ⟨_, exec_ret_of_slot h0 hw⟩
  | call nnn =>
    rcases Nat.lt_or_ge s.sp.val 16 with hroom | hfull
    · exact ⟨_, exec_call_of_room nnn hroom⟩
    · exact ⟨_, exec_call_of_full nnn (by omega)⟩
  | ldVxK x =>
    cases hk : s.key with
    | none => exact ⟨_, exec_ldVxK_of_no_key hk⟩
    | some k => exact ⟨_, exec_ldVxK_of_key hk⟩
  | drw | addI | ldB | ldMemVx | ldVxMem | ldStVx => exact exists_ite_next ..
  | _ => exact ⟨_, rfl⟩

theorem cycle_has_next (hs : s.StackOk) : ∃ t, cycle s = .next t := by
  rcases Nat.lt_or_ge s.pc.toNat 4094 with hp | hp
  · obtain ⟨u, hu⟩ := exec_has_next (decodeWord s.fetchWord) hs
    exact ⟨u.endCycle, by rw [cycle_exec hp, hu]⟩
  · exact ⟨_, cycle_of_fetch_beyond_limit hp⟩

/-- Settles O56: under the invariant a cycle has a next state, and a step is a cycle or nothing. -/
theorem everyStepHasNextState : Obligations.EveryStepHasNextState := by
  intro s hinv
  obtain ⟨-, hs, -⟩ := State.inv_iff.mp hinv
  refine ⟨?_, cycle_has_next hs⟩
  by_cases hrun : s.status = .running
  · rw [step_running hrun]; exact cycle_has_next hs
  · exact ⟨s, step_idle hrun⟩

end Sys2Proof.Machine
end

section
/-! PROOFS. Reset, load and the other requests of the host (spec/70_reset_and_hazards.md R700 to R704; spec/60_exceptions.md R640
to R657). -/

namespace Sys2Proof.Machine

variable {s : State}

/-! ### Where reset and load are allowed (R645) -/

theorem Status.allowsLoad_of_stopped_or_isFaulted {x : Status} (h : x = .stopped ∨ x.isFaulted = true) :
    x.allowsLoad = true := by
  obtain rfl | h := h
  · rfl
  · obtain ⟨f, a, rfl⟩ := x.isFaulted_iff.mp h
    rfl

theorem Status.not_allowsLoad_of_running_or_paused {x : Status} (h : x = .running ∨ x = .paused) :
    ¬ x.allowsLoad = true := by
  obtain rfl | rfl := h <;> exact Bool.false_ne_true

/-! ### Reset -/

/-- R130, R210: the memory of the reset state is the font and zeros. -/
theorem State.read8_afterReset (s : State) (a : Nat) :
    s.afterReset.read8 a = if h : a < 80 then s.config.fontData[a] else 0 := by
  have h : s.afterReset.read8 a = Memory.unlisted s.config.fontData a := rfl
  rw [h, Memory.unlisted]
  simp [fontBase]

/-- Settles O58, field by field of the reset state. -/
theorem resetRestoresResetValues : Obligations.ResetRestoresResetValues := by
  refine fun s => ⟨fun h => ?_, fun h => if_neg (Status.not_allowsLoad_of_running_or_paused h)⟩
  refine ⟨s.afterReset, if_pos (Status.allowsLoad_of_stopped_or_isFaulted h), fun a _ => s.read8_afterReset a, fun r => ?_, rfl,
    rfl, rfl, fun j => ?_, rfl, rfl, fun p q => ?_, rfl, rfl, rfl, rfl, rfl, rfl⟩
  · exact Vector.getElem_replicate r.isLt
  · exact Vector.getElem_replicate j.isLt
  · exact (Framebuffer.pixel_eq_getElem _ p q).symm.trans (Framebuffer.pixel_blank p q)

/-! ### Load -/

/-- Settles O59, by status and length. -/
theorem loadPlacesProgram : Obligations.LoadPlacesProgram := by
  refine fun bytes s => ⟨fun hs hwf hlen => ?_, fun hs hlen => ?_, fun hs =>
    if_neg (Status.not_allowsLoad_of_running_or_paused hs)⟩
  · have hm : s.memSorted := State.memSorted_of_wf hwf
    have hload : transact (.loadProgram bytes) s = .next (s.writeBytes 512 bytes, .loaded) :=
      (if_pos (Status.allowsLoad_of_stopped_or_isFaulted hs)).trans (if_neg (Nat.not_lt.mpr hlen))
    refine ⟨_, hload, State.writeBytes_setMem .., fun k hk => ?_, fun a ha => State.read8_writeBytes_outside hm ha⟩
    exact State.read8_writeBytes_inside hm (List.getElem?_eq_getElem hk)
  · exact (if_pos (Status.allowsLoad_of_stopped_or_isFaulted hs)).trans (if_pos hlen)

/-! ### The other requests -/

/-- A request that moves status from one status and does nothing in the others (R652, R654, R655, R657). -/
theorem ite_setStatus {x y : Status} (s : State) :
    (s.status = x → (Host.Outcome.next (if s.status = x then s.setStatus y else s, .done) : Answer) =
      .next ({ s with status := y }, .done)) ∧
    (s.status ≠ x → (Host.Outcome.next (if s.status = x then s.setStatus y else s, .done) : Answer) = .next (s, .done)) := by
  constructor <;> intro h
  · rw [if_pos h]; rfl
  · rw [if_neg h]

/-- Settles O60: a request with one effect in every status is its own definition; the four controls are by status. -/
theorem hostRequestsHaveTheirEffects : Obligations.HostRequestsHaveTheirEffects := by
  intro s
  obtain ⟨hrun, hrun'⟩ := ite_setStatus (x := .stopped) (y := .running) s
  obtain ⟨hpause, hpause'⟩ := ite_setStatus (x := .running) (y := .paused) s
  obtain ⟨hresume, hresume'⟩ := ite_setStatus (x := .paused) (y := .running) s
  refine ⟨fun _ => rfl, rfl, rfl, rfl, rfl, rfl, hrun, hrun', hpause, hpause', hresume, hresume', fun h => ?_, fun h h' => ?_⟩
  · rw [transact, hostStop, if_pos (by simpa using h)]; rfl
  · rw [transact, hostStop, if_neg (by simpa using ⟨h, h'⟩)]

end Sys2Proof.Machine
end

section
/-! PROOFS. DRW, pixel by pixel (spec/45_display.md R531 to R535). -/

namespace Sys2Proof.Machine

variable {s : State} {x y r : Reg} {n : Nibble} {p q : Nat}

/-! ### The sprite that an instruction draws -/

/-- R531, R532: the bytes of the sprite, laid over the screen, have a set bit exactly where the sprite covers. -/
theorem spriteBit_spriteBytes (s : State) (x y : Reg) (n : Nibble) (p q : Nat) :
    spriteBit (s.reg x).toNat (s.reg y).toNat (s.spriteBytes n) p q = s.spriteCovers x y n p q := by
  rw [spriteBit, rowBit, State.spriteBytes, State.length_readBytes, State.getElem?_readBytes, State.spriteCovers]
  by_cases hq : (s.reg y).toNat ≤ q ∧ q < (s.reg y).toNat + n.toNat
  · have hk : q - (s.reg y).toNat < n.toNat := by omega
    simp [hq, hk]
  · simp [hq]

/-- R533: inside the framebuffer, the covered pixels are flipped. -/
theorem State.sprite_pixel (hp : p < 64) (hq : q < 32) :
    (s.sprite x y n).1.pixel p q = (s.fb.pixel p q ^^ s.spriteCovers x y n p q) := by
  rw [State.sprite, (drawRows_spec ..).1, spriteBit_spriteBytes]
  simp [hp, hq]

/-- R534: there is a collision where a lit pixel is covered. -/
theorem State.sprite_collides_iff :
    (s.sprite x y n).2 = true ↔ ∃ p q, s.spriteCovers x y n p q = true ∧ s.fb.pixel p q = true := by
  rw [State.sprite, (drawRows_spec ..).2]
  simp only [Bool.false_eq_true, false_or, spriteBit_spriteBytes]

theorem Framebuffer.lt_of_pixel {fb : Framebuffer} (h : fb.pixel p q = true) : p < 64 ∧ q < 32 := by
  by_contra hout
  rw [Framebuffer.pixel_outside hout] at h
  cases h

/-! ### The state after a draw -/

/-- What DRW leaves where its range fits: the sprite drawn, VF last, redraw pending. -/
def State.afterDraw (s : State) (x y : Reg) (n : Nibble) : State :=
  ((s.advance.setFb (s.sprite x y n).1).setFlag (flagByte (s.sprite x y n).2)).setRedraw true

theorem exec_drw_eq_afterDraw (h : n.toNat = 0 ∨ s.i.toNat + n.toNat - 1 < 4096) :
    exec (.drw x y n) s = .next (s.afterDraw x y n) :=
  exec_drw_of_fits (by omega)

theorem State.afterDraw_frame (s : State) (x y : Reg) (n : Nibble) :
    s.afterDraw x y n =
      { s with pc := s.pc + 2, fb := (s.afterDraw x y n).fb, v := (s.afterDraw x y n).v, redraw := true } := rfl

@[simp] theorem State.afterDraw_fb : (s.afterDraw x y n).fb = (s.sprite x y n).1 := rfl

theorem State.reg_afterDraw_flag : (s.afterDraw x y n).reg 15 = flagByte (s.sprite x y n).2 :=
  (State.reg_setV _ 15 15 _).trans (if_pos rfl)

theorem State.reg_afterDraw_of_ne (h : r ≠ 15) : (s.afterDraw x y n).reg r = s.reg r :=
  (State.reg_setV _ 15 r _).trans (if_neg h)

theorem flagByte_eq_one_iff (c : Bool) : flagByte c = 1 ↔ c = true := by cases c <;> decide

/-- Settles O38, with VF by whether the sprite collides. -/
theorem drawFlipsCoveredPixels : Obligations.DrawFlipsCoveredPixels := by
  refine ⟨fun _ => decodeWord_drw, fun x y n s h => ?_⟩
  refine ⟨_, exec_drw_eq_afterDraw h, s.afterDraw_frame x y n, fun p q hp hq => State.sprite_pixel hp hq, ?_, fun hdark => ?_,
    fun r => State.reg_afterDraw_of_ne⟩
  · rintro ⟨p, q, -, -, hcover, hlit⟩
    rw [State.reg_afterDraw_flag, flagByte_eq_one_iff, State.sprite_collides_iff]
    exact ⟨p, q, hcover, hlit⟩
  · have hnone : (s.sprite x y n).2 = false := by
      refine Bool.eq_false_iff.mpr fun hc => ?_
      obtain ⟨p, q, hcover, hlit⟩ := State.sprite_collides_iff.mp hc
      obtain ⟨hp, hq⟩ := Framebuffer.lt_of_pixel hlit
      rw [hdark p q hp hq hcover] at hlit
      cases hlit
    rw [State.reg_afterDraw_flag, hnone]
    rfl

/-! ### Drawing twice -/

/-- A draw leaves the sprite's place and bytes, unless VF gives a coordinate. -/
theorem State.spriteCovers_afterDraw (hx : x ≠ 15) (hy : y ≠ 15) :
    (s.afterDraw x y n).spriteCovers x y n p q = s.spriteCovers x y n p q := by
  simp only [State.spriteCovers, State.reg_afterDraw_of_ne hx, State.reg_afterDraw_of_ne hy]
  rfl

/-- Settles O39: the second draw flips the same pixels back, and collides with those that the first has lit. -/
theorem drawTwiceRestoresFramebuffer : Obligations.DrawTwiceRestoresFramebuffer := by
  intro x y n s hx hy h
  refine ⟨s.afterDraw x y n, (s.afterDraw x y n).afterDraw x y n, exec_drw_eq_afterDraw h, exec_drw_eq_afterDraw h, ?_, ?_⟩
  · refine Framebuffer.ext_pixel fun p q hp hq => ?_
    rw [State.afterDraw_fb, State.sprite_pixel hp hq, State.spriteCovers_afterDraw hx hy, State.afterDraw_fb,
      State.sprite_pixel hp hq, Bool.xor_assoc, Bool.xor_self, Bool.xor_false]
  · rw [State.reg_afterDraw_flag, flagByte_eq_one_iff, State.sprite_collides_iff]
    simp only [State.spriteCovers_afterDraw hx hy]
    have hlit : ∀ {p q}, p < 64 → q < 32 →
        (s.afterDraw x y n).fb.pixel p q = (s.fb.pixel p q ^^ s.spriteCovers x y n p q) := State.sprite_pixel
    constructor
    · rintro ⟨p, q, hcover, ht⟩
      obtain ⟨hp, hq⟩ := Framebuffer.lt_of_pixel ht
      refine ⟨p, q, hp, hq, ?_, ht⟩
      rw [hlit hp hq, hcover] at ht
      simpa using ht
    · rintro ⟨p, q, hp, hq, hs, ht⟩
      refine ⟨p, q, ?_, ht⟩
      rw [hlit hp hq, hs] at ht
      simpa using ht

end Sys2Proof.Machine
end

section
/-! PROOFS. Terminal loops (spec/70_reset_and_hazards.md R714). -/

namespace Sys2Proof.Machine

variable {s t : State}

/-- The word `0x1000 | p`, as a number. -/
theorem jumpWord_toNat {p : Word} (hp : p.toNat ≤ 0xFFF) : (0x1000 ||| p).toNat = 4096 + p.toNat := by
  rw [BitVec.toNat_or]
  exact (Nat.two_pow_add_eq_or_of_lt (i := 12) (Nat.lt_succ_of_le hp) 1).symm

/-- It decodes to the jump to p. -/
theorem exists_decodeWord_jumpWord {p : Word} (hp : p.toNat ≤ 0xFFF) :
    ∃ nnn, decodeWord (0x1000 ||| p) = .jp nnn ∧ nnn.toNat = p.toNat := by
  have hfamily : fieldFamily (0x1000 ||| p) = 0x1 := by
    apply BitVec.eq_of_toNat_eq
    rw [fieldFamily_toNat, jumpWord_toNat hp]
    exact (by omega : (4096 + p.toNat) / 4096 % 16 = 1)
  refine ⟨_, decodeWord_jp (by rw [and_F000, hfamily]; rfl), ?_⟩
  rw [fieldNNN_toNat, jumpWord_toNat hp]
  omega

theorem State.atTerminalLoop_iff (s : State) : s.atTerminalLoop = true ↔
    s.status.isFaulted = false ∧ s.pc.toNat < 4094 ∧ s.pc.toNat ≤ 0xFFF ∧ s.fetchWord = (0x1000 ||| s.pc) := by
  have hfetch : s.fetchFaults = false ↔ s.pc.toNat < 4094 := by
    rw [← Bool.not_eq_true, State.fetchFaults_iff, Nat.not_le]
  simp only [State.atTerminalLoop, Bool.and_eq_true, Bool.not_eq_true', decide_eq_true_eq, beq_iff_eq, hfetch, and_assoc]

/-- The countdown leaves the status, pc and memory, which make a terminal loop. -/
theorem State.atTerminalLoop_countTimers (s : State) : s.countTimers.atTerminalLoop = s.atTerminalLoop := by
  rw [State.countTimers_def]
  rfl

/-- R714: the cycle of a terminal loop is the countdown alone. -/
theorem cycle_of_atTerminalLoop (h : s.atTerminalLoop = true) : cycle s = .next s.countTimers := by
  obtain ⟨hs, hp, hle, hw⟩ := s.atTerminalLoop_iff.mp h
  obtain ⟨nnn, hd, hnnn⟩ := exists_decodeWord_jumpWord hle
  exact cycle_of_decodeWord_committed hp (hw ▸ hd) (exec_jp_self hnnn) hs

theorem State.st_countTimers_toNat (s : State) : s.countTimers.st.toNat = s.st.toNat - 1 := by
  rw [State.countTimers_def]
  exact countdown_toNat s.st

theorem State.countTimers_timers (s : State) : s.countTimers =
    { s with dt := s.countTimers.dt, st := s.countTimers.st, events := s.countTimers.events } := by
  rw [State.countTimers_def]
  rfl

/-- Settles O51: the good end is the state after such a cycle. -/
theorem terminalLoopStaysPut : Obligations.TerminalLoopStaysPut := by
  have hstay : ∀ {s : State}, s.atTerminalLoop = true → s.countTimers.atTerminalLoop = true := fun {s} h =>
    s.atTerminalLoop_countTimers.trans h
  refine ⟨fun s h => ?_, fun s₀ t hend => ?_⟩
  · exact ⟨_, cycle_of_atTerminalLoop h, s.countTimers_timers, s.dt_countTimers_toNat, s.st_countTimers_toNat, hstay h⟩
  · cases hend with
    | terminalLoop _ hloop hcycle =>
      cases (cycle_of_atTerminalLoop hloop).symm.trans (cyclesTo_iff.mp hcycle).2
      exact hstay hloop

end Sys2Proof.Machine
end
